-- ==== Sys2Proof/Word.lean ====
section
/-! DEFINITION. The bit vectors of the engine: registers, pc and the fields of a record (00_scope.md R7, R9; 30_encoding.md R80). -/

namespace Sys2Proof

/-- A 32-bit word: a general register, the pc, a reference instruction word (00_scope.md R7, R9). -/
abbrev Word := BitVec 32

/-- A cell of data memory (10_state.md R32). -/
abbrev Byte := BitVec 8

/-- The index of a general register, 0 to 31 (30_encoding.md R80). -/
abbrev RegIdx := BitVec 5

/-- A 16-bit field: an immediate, a memory offset or a branch offset (30_encoding.md R80, R83). -/
abbrev Field16 := BitVec 16

/-- A 5-bit shift amount (30_encoding.md R80, R105). -/
abbrev ShAmt := BitVec 5

/-- A 26-bit jump index (30_encoding.md R80, R98). -/
abbrev Index26 := BitVec 26

/-- Register 0, forced to zero at the end of every step (10_state.md R22). -/
abbrev zeroReg : RegIdx := 0#5

/-- Register 31, the link register of `jal` and `jalr` (10_state.md R21, 45_control_transfer.md R242). -/
abbrev linkReg : RegIdx := 31#5

end Sys2Proof
end

