-- ==== Sys2Proof/Config.lean ====
section
/-! DEFINITION. What an instance fixes: the sizes the spec states, and the launch parameters it leaves open (00_scope.md R7, R8). -/

namespace Sys2Proof

/-- `MEM_SIZE`, the bytes of data memory: 2^24 (00_scope.md R7). -/
def memSize : Nat := 16777216

/-- `N_MAX`, the largest admitted program length (00_scope.md R8, 10_state.md R26). -/
def nMax : Nat := 0x3FFFFFF

/-- `LINK_TIMING`: when `jal` and `jalr` write register 31, relative to their delay-slot instruction
(45_control_transfer.md R233). The spec leaves it OPEN (92_eei_decisions.md D10). -/
inductive LinkTiming where
  | beforeDelaySlot
  | afterDelaySlot
  deriving DecidableEq, Repr

/-- The launch parameters an instance is built with (00_scope.md R8, 10_state.md R37.4), and the two
values that 93_implementation_defined.md U3 leaves at any value. -/
structure LaunchParams where
  /-- `INIT_REGS`: registers 1 to 31, in order (92_eei_decisions.md D3). -/
  initRegs : Vector Word 31
  /-- `INIT_MEM`: the cells that do not start as 0, in any order (92_eei_decisions.md D4, log 2). -/
  initMem : List Host.Cell
  /-- `LINK_TIMING` (92_eei_decisions.md D10). -/
  linkTiming : LinkTiming
  /-- `curIndex` before the first fetch: any value (93_implementation_defined.md U3). -/
  preFetchIndex : Nat
  /-- `curLine` before the first fetch: any value (93_implementation_defined.md U3). -/
  preFetchLine : Nat
  deriving DecidableEq, Repr

/-- The launch parameters of `State.reset` (DESIGN CHOICE, unsafe: log 1, 2, 3, 4): the convention of
95_test_vectors.md, registers and memory 0 and `BeforeDelaySlot`. -/
def LaunchParams.default : LaunchParams where
  initRegs := Vector.replicate 31 0#32
  initMem := []
  linkTiming := .beforeDelaySlot
  preFetchIndex := 0
  preFetchLine := 0

end Sys2Proof
end

