-- ==== Sys2Proof/Syntax.lean ====
section
/-! DEFINITION. The instructions: one constructor for each row of spec/opcode_table.json, with the fields of its record (30_encoding.md R80, R84, R86). -/

namespace Sys2Proof

/-- An instruction record of the subset (30_encoding.md R80). The fields stand in the operand order of
R86; `ovf` records that the immediate literal was above `0xffff` (R104). -/
inductive Instr where
  | nop
  | sll (rd rt : RegIdx) (sa : ShAmt)
  | srl (rd rt : RegIdx) (sa : ShAmt)
  | sra (rd rt : RegIdx) (sa : ShAmt)
  | sllv (rd rt rs : RegIdx)
  | srlv (rd rt rs : RegIdx)
  | srav (rd rt rs : RegIdx)
  | jr (rs : RegIdx)
  | jalr (rs : RegIdx)
  | movz (rd rs rt : RegIdx)
  | movn (rd rs rt : RegIdx)
  | addu (rd rs rt : RegIdx)
  | subu (rd rs rt : RegIdx)
  | and (rd rs rt : RegIdx)
  | or (rd rs rt : RegIdx)
  | xor (rd rs rt : RegIdx)
  | nor (rd rs rt : RegIdx)
  | slt (rd rs rt : RegIdx)
  | sltu (rd rs rt : RegIdx)
  | bltz (rs : RegIdx) (off : Field16)
  | bgez (rs : RegIdx) (off : Field16)
  | j (index : Index26)
  | jal (index : Index26)
  | beq (rs rt : RegIdx) (off : Field16)
  | bne (rs rt : RegIdx) (off : Field16)
  | blez (rs : RegIdx) (off : Field16)
  | bgtz (rs : RegIdx) (off : Field16)
  | addiu (rt rs : RegIdx) (imm : Field16) (ovf : Bool)
  | slti (rt rs : RegIdx) (imm : Field16) (ovf : Bool)
  | sltiu (rt rs : RegIdx) (imm : Field16) (ovf : Bool)
  | andi (rt rs : RegIdx) (imm : Field16) (ovf : Bool)
  | ori (rt rs : RegIdx) (imm : Field16) (ovf : Bool)
  | xori (rt rs : RegIdx) (imm : Field16) (ovf : Bool)
  | lui (rt : RegIdx) (imm : Field16) (ovf : Bool)
  | lb (rt base : RegIdx) (off : Field16)
  | lw (rt base : RegIdx) (off : Field16)
  | lbu (rt base : RegIdx) (off : Field16)
  | sb (rt base : RegIdx) (off : Field16)
  | sw (rt base : RegIdx) (off : Field16)
  deriving DecidableEq, Repr

end Sys2Proof
end

