-- ==== Sys2Proof/Machine/Record.lean ====
section
/-! DEFINITION. What a program entry holds: a record and its source line (10_state.md R26, 30_encoding.md R80, R81). -/

namespace Sys2Proof

/-- An instruction record (30_encoding.md R80): an instruction of the subset, or one of the two records
of lines that spell none, which ZMI gives a defined run-time behaviour (40_cycle.md R135, R136). -/
inductive Record where
  /-- An instruction of the subset. -/
  | op (i : Instr)
  /-- `UNSUP`: any other mnemonic with operands. -/
  | unsup
  /-- `INVALID`: any other text without an operand separator. -/
  | invalid
  deriving DecidableEq, Repr

/-- A program entry: the record and the 1-based source line it came from (10_state.md R26). -/
structure Entry where
  record : Record
  line : Nat
  deriving DecidableEq, Repr

/-- The ten transfers (45_control_transfer.md R230). -/
def Instr.isTransfer : Instr → Bool
  | .j _ | .jal _ | .jr _ | .jalr _ | .beq _ _ _ | .bne _ _ _ | .bltz _ _ | .blez _ _
  | .bgtz _ _ | .bgez _ _ => true
  | .nop | .sll _ _ _ | .srl _ _ _ | .sra _ _ _ | .sllv _ _ _ | .srlv _ _ _ | .srav _ _ _
  | .movz _ _ _ | .movn _ _ _ | .addu _ _ _ | .subu _ _ _ | .and _ _ _ | .or _ _ _ | .xor _ _ _
  | .nor _ _ _ | .slt _ _ _ | .sltu _ _ _ | .addiu _ _ _ _ | .slti _ _ _ _ | .sltiu _ _ _ _
  | .andi _ _ _ _ | .ori _ _ _ _ | .xori _ _ _ _ | .lui _ _ _ | .lb _ _ _ | .lw _ _ _
  | .lbu _ _ _ | .sb _ _ _ | .sw _ _ _ => false

/-- Whether a record is a transfer: its step needs an entry for its delay slot. -/
def Record.isTransfer : Record → Bool
  | .op i => i.isTransfer
  | .unsup | .invalid => false

end Sys2Proof
end

