-- ==== Sys2Proof/WellFormed.lean ====
section
/-! DEFINITION. The checks of syntax: which instructions have a reference word of their own, and what a program store must look like. Every field's range is a fact of its type (30_encoding.md R80). -/

namespace Sys2Proof

/-- The `ovf` bit of a record; false for a record that has none (30_encoding.md R80). -/
def Instr.ovf : Instr → Bool
  | .addiu _ _ _ o | .slti _ _ _ o | .sltiu _ _ _ o | .andi _ _ _ o | .ori _ _ _ o
  | .xori _ _ _ o | .lui _ _ o => o
  | .nop | .sll _ _ _ | .srl _ _ _ | .sra _ _ _ | .sllv _ _ _ | .srlv _ _ _ | .srav _ _ _
  | .jr _ | .jalr _ | .movz _ _ _ | .movn _ _ _ | .addu _ _ _ | .subu _ _ _ | .and _ _ _
  | .or _ _ _ | .xor _ _ _ | .nor _ _ _ | .slt _ _ _ | .sltu _ _ _ | .bltz _ _ | .bgez _ _
  | .j _ | .jal _ | .beq _ _ _ | .bne _ _ _ | .blez _ _ | .bgtz _ _ | .lb _ _ _ | .lw _ _ _
  | .lbu _ _ _ | .sb _ _ _ | .sw _ _ _ => false

/-- An instruction is well formed as a reference word when it has a word that decodes back to it:
no word carries an overflowing literal, and the word of `sll $0, $0, 0` is the word of `nop`, which
comes first in the table (30_encoding.md R113). As a RECORD of the program store every `Instr` is
well formed. -/
def Instr.wellFormed (i : Instr) : Bool :=
  !i.ovf && decide (i ≠ .sll 0#5 0#5 0#5)

/-- A program store is well formed when it has at most `N_MAX` entries and its source lines are
positive (10_state.md R26) and strictly rising (30_encoding.md R90, R95). -/
abbrev wellFormedProgram (prog : List Entry) : Prop :=
  prog.length ≤ nMax ∧ (∀ e ∈ prog, 0 < e.line) ∧ prog.Pairwise (fun a b => a.line < b.line)

end Sys2Proof
end

