-- ==== Sys2Proof/Decode.lean ====
section
/-! DEFINITION. The reference binary words: decoder and encoder (30_encoding.md R111 to R114, opcode_table.json). The engine itself executes records, never words (92_eei_decisions.md D1): a word becomes a record when a program is loaded (log 5, 6). -/

namespace Sys2Proof

/-! ## Fields of a word (30_encoding.md R111) -/

/-- Bits 25:21. -/
def fieldRs (w : Word) : RegIdx := w.extractLsb' 21 5

/-- Bits 20:16. -/
def fieldRt (w : Word) : RegIdx := w.extractLsb' 16 5

/-- Bits 15:11. -/
def fieldRd (w : Word) : RegIdx := w.extractLsb' 11 5

/-- Bits 10:6. -/
def fieldSa (w : Word) : ShAmt := w.extractLsb' 6 5

/-- Bits 15:0: an immediate or an offset. -/
def fieldImm (w : Word) : Field16 := w.extractLsb' 0 16

/-- Bits 25:0: a jump index. -/
def fieldIndex (w : Word) : Index26 := w.extractLsb' 0 26

/-! ## The opcode table -/

/-- A row of spec/opcode_table.json: the fixed bits, and the record its operands make (30_encoding.md R112). -/
structure OpcodeRow where
  mnemonic : String
  mask : Word
  pattern : Word
  build : Word → Instr

/-- `word & mask == match` (30_encoding.md R113). -/
def OpcodeRow.hits (r : OpcodeRow) (w : Word) : Bool := w &&& r.mask == r.pattern

/-- The row of `nop`, which comes first: `0x00000000` is `nop`, not `sll $0, $0, 0` (30_encoding.md R113). -/
def nopRow : List OpcodeRow := [
  ⟨"nop", 0xFFFFFFFF#32, 0x00000000#32, fun _ => .nop⟩]

/-- The rows of opcode 000000, SPECIAL (30_encoding.md R112). -/
def specialRows : List OpcodeRow := [
  ⟨"sll", 0xFFE0003F#32, 0x00000000#32, fun w => .sll (fieldRd w) (fieldRt w) (fieldSa w)⟩,
  ⟨"srl", 0xFFE0003F#32, 0x00000002#32, fun w => .srl (fieldRd w) (fieldRt w) (fieldSa w)⟩,
  ⟨"sra", 0xFFE0003F#32, 0x00000003#32, fun w => .sra (fieldRd w) (fieldRt w) (fieldSa w)⟩,
  ⟨"sllv", 0xFC0007FF#32, 0x00000004#32, fun w => .sllv (fieldRd w) (fieldRt w) (fieldRs w)⟩,
  ⟨"srlv", 0xFC0007FF#32, 0x00000006#32, fun w => .srlv (fieldRd w) (fieldRt w) (fieldRs w)⟩,
  ⟨"srav", 0xFC0007FF#32, 0x00000007#32, fun w => .srav (fieldRd w) (fieldRt w) (fieldRs w)⟩,
  ⟨"jr", 0xFC1FFFFF#32, 0x00000008#32, fun w => .jr (fieldRs w)⟩,
  ⟨"jalr", 0xFC1FFFFF#32, 0x0000F809#32, fun w => .jalr (fieldRs w)⟩,
  ⟨"movz", 0xFC0007FF#32, 0x0000000A#32, fun w => .movz (fieldRd w) (fieldRs w) (fieldRt w)⟩,
  ⟨"movn", 0xFC0007FF#32, 0x0000000B#32, fun w => .movn (fieldRd w) (fieldRs w) (fieldRt w)⟩,
  ⟨"addu", 0xFC0007FF#32, 0x00000021#32, fun w => .addu (fieldRd w) (fieldRs w) (fieldRt w)⟩,
  ⟨"subu", 0xFC0007FF#32, 0x00000023#32, fun w => .subu (fieldRd w) (fieldRs w) (fieldRt w)⟩,
  ⟨"and", 0xFC0007FF#32, 0x00000024#32, fun w => .and (fieldRd w) (fieldRs w) (fieldRt w)⟩,
  ⟨"or", 0xFC0007FF#32, 0x00000025#32, fun w => .or (fieldRd w) (fieldRs w) (fieldRt w)⟩,
  ⟨"xor", 0xFC0007FF#32, 0x00000026#32, fun w => .xor (fieldRd w) (fieldRs w) (fieldRt w)⟩,
  ⟨"nor", 0xFC0007FF#32, 0x00000027#32, fun w => .nor (fieldRd w) (fieldRs w) (fieldRt w)⟩,
  ⟨"slt", 0xFC0007FF#32, 0x0000002A#32, fun w => .slt (fieldRd w) (fieldRs w) (fieldRt w)⟩,
  ⟨"sltu", 0xFC0007FF#32, 0x0000002B#32, fun w => .sltu (fieldRd w) (fieldRs w) (fieldRt w)⟩]

/-- The rows of REGIMM, of the jumps and of the branches (30_encoding.md R112). -/
def transferRows : List OpcodeRow := [
  ⟨"bltz", 0xFC1F0000#32, 0x04000000#32, fun w => .bltz (fieldRs w) (fieldImm w)⟩,
  ⟨"bgez", 0xFC1F0000#32, 0x04010000#32, fun w => .bgez (fieldRs w) (fieldImm w)⟩,
  ⟨"j", 0xFC000000#32, 0x08000000#32, fun w => .j (fieldIndex w)⟩,
  ⟨"jal", 0xFC000000#32, 0x0C000000#32, fun w => .jal (fieldIndex w)⟩,
  ⟨"beq", 0xFC000000#32, 0x10000000#32, fun w => .beq (fieldRs w) (fieldRt w) (fieldImm w)⟩,
  ⟨"bne", 0xFC000000#32, 0x14000000#32, fun w => .bne (fieldRs w) (fieldRt w) (fieldImm w)⟩,
  ⟨"blez", 0xFC1F0000#32, 0x18000000#32, fun w => .blez (fieldRs w) (fieldImm w)⟩,
  ⟨"bgtz", 0xFC1F0000#32, 0x1C000000#32, fun w => .bgtz (fieldRs w) (fieldImm w)⟩]

/-- The rows of the immediate arithmetic and of the loads and stores (30_encoding.md R112). -/
def immediateRows : List OpcodeRow := [
  ⟨"addiu", 0xFC000000#32, 0x24000000#32, fun w => .addiu (fieldRt w) (fieldRs w) (fieldImm w) false⟩,
  ⟨"slti", 0xFC000000#32, 0x28000000#32, fun w => .slti (fieldRt w) (fieldRs w) (fieldImm w) false⟩,
  ⟨"sltiu", 0xFC000000#32, 0x2C000000#32, fun w => .sltiu (fieldRt w) (fieldRs w) (fieldImm w) false⟩,
  ⟨"andi", 0xFC000000#32, 0x30000000#32, fun w => .andi (fieldRt w) (fieldRs w) (fieldImm w) false⟩,
  ⟨"ori", 0xFC000000#32, 0x34000000#32, fun w => .ori (fieldRt w) (fieldRs w) (fieldImm w) false⟩,
  ⟨"xori", 0xFC000000#32, 0x38000000#32, fun w => .xori (fieldRt w) (fieldRs w) (fieldImm w) false⟩,
  ⟨"lui", 0xFFE00000#32, 0x3C000000#32, fun w => .lui (fieldRt w) (fieldImm w) false⟩,
  ⟨"lb", 0xFC000000#32, 0x80000000#32, fun w => .lb (fieldRt w) (fieldRs w) (fieldImm w)⟩,
  ⟨"lw", 0xFC000000#32, 0x8C000000#32, fun w => .lw (fieldRt w) (fieldRs w) (fieldImm w)⟩,
  ⟨"lbu", 0xFC000000#32, 0x90000000#32, fun w => .lbu (fieldRt w) (fieldRs w) (fieldImm w)⟩,
  ⟨"sb", 0xFC000000#32, 0xA0000000#32, fun w => .sb (fieldRt w) (fieldRs w) (fieldImm w)⟩,
  ⟨"sw", 0xFC000000#32, 0xAC000000#32, fun w => .sw (fieldRt w) (fieldRs w) (fieldImm w)⟩]

/-- The rows of spec/opcode_table.json, in table order. -/
def opcodeTable : List OpcodeRow := nopRow ++ specialRows ++ transferRows ++ immediateRows

/-! ## Decoding -/

/-- Why a word has no record. -/
inductive DecodeRefusal where
  /-- A `jalr` word whose rd is not 31 (30_encoding.md R114). Raised by `decodeWord`; safe: it gives up a program. -/
  | jalrLinksElsewhere
  deriving DecidableEq, Repr

/-- What a word decodes to: a record, or a refusal by name. -/
inductive Decoded where
  | record (r : Record)
  | refused (reason : DecodeRefusal)
  deriving DecidableEq, Repr

/-- A `jalr` word: SPECIAL, funct 0x09, rt and sa zero, any rs and any rd (30_encoding.md R112, R114; log 7). -/
def isJalrWord (w : Word) : Bool := w &&& 0xFC1F07FF#32 == 0x00000009#32

/-- The record of a word: that of the first row it matches; a `jalr` word that matches no row is refused,
since its rd is not 31; every other word that matches no row is `UNSUP` (30_encoding.md R113, R114). -/
def decodeWord (w : Word) : Decoded :=
  match opcodeTable.find? (fun r => r.hits w) with
  | some r => .record (.op (r.build w))
  | none => if isJalrWord w then .refused .jalrLinksElsewhere else .record .unsup

/-- The host's view of the decoder: a word of `nbits` bits, every bit above them zero. Every instruction
has one word of 32 bits (30_encoding.md R111). -/
def decodeTableWord (nbits w : Nat) : Option Instr :=
  match decodeWord (BitVec.ofNat 32 (w % 2 ^ nbits)) with
  | .record (.op i) => some i
  | .record .unsup | .record .invalid | .refused _ => none

/-! ## Encoding -/

/-- An R-type word of opcode SPECIAL (30_encoding.md R111). -/
def wordR (rs rt rd : RegIdx) (sa : ShAmt) (funct : BitVec 6) : Word :=
  0x00#6 ++ rs ++ rt ++ rd ++ sa ++ funct

/-- An I-type word (30_encoding.md R111). -/
def wordI (opcode : BitVec 6) (rs rt : RegIdx) (imm : Field16) : Word :=
  opcode ++ rs ++ rt ++ imm

/-- A J-type word (30_encoding.md R111). -/
def wordJ (opcode : BitVec 6) (index : Index26) : Word := opcode ++ index

/-- The reference word of an instruction (30_encoding.md R112). A word has no place for `ovf`. -/
def encode : Instr → Word
  | .nop => 0x00000000#32
  | .sll rd rt sa => wordR 0#5 rt rd sa 0x00#6
  | .srl rd rt sa => wordR 0#5 rt rd sa 0x02#6
  | .sra rd rt sa => wordR 0#5 rt rd sa 0x03#6
  | .sllv rd rt rs => wordR rs rt rd 0#5 0x04#6
  | .srlv rd rt rs => wordR rs rt rd 0#5 0x06#6
  | .srav rd rt rs => wordR rs rt rd 0#5 0x07#6
  | .jr rs => wordR rs 0#5 0#5 0#5 0x08#6
  | .jalr rs => wordR rs 0#5 31#5 0#5 0x09#6
  | .movz rd rs rt => wordR rs rt rd 0#5 0x0A#6
  | .movn rd rs rt => wordR rs rt rd 0#5 0x0B#6
  | .addu rd rs rt => wordR rs rt rd 0#5 0x21#6
  | .subu rd rs rt => wordR rs rt rd 0#5 0x23#6
  | .and rd rs rt => wordR rs rt rd 0#5 0x24#6
  | .or rd rs rt => wordR rs rt rd 0#5 0x25#6
  | .xor rd rs rt => wordR rs rt rd 0#5 0x26#6
  | .nor rd rs rt => wordR rs rt rd 0#5 0x27#6
  | .slt rd rs rt => wordR rs rt rd 0#5 0x2A#6
  | .sltu rd rs rt => wordR rs rt rd 0#5 0x2B#6
  | .bltz rs off => wordI 0x01#6 rs 0x00#5 off
  | .bgez rs off => wordI 0x01#6 rs 0x01#5 off
  | .j index => wordJ 0x02#6 index
  | .jal index => wordJ 0x03#6 index
  | .beq rs rt off => wordI 0x04#6 rs rt off
  | .bne rs rt off => wordI 0x05#6 rs rt off
  | .blez rs off => wordI 0x06#6 rs 0x00#5 off
  | .bgtz rs off => wordI 0x07#6 rs 0x00#5 off
  | .addiu rt rs imm _ => wordI 0x09#6 rs rt imm
  | .slti rt rs imm _ => wordI 0x0A#6 rs rt imm
  | .sltiu rt rs imm _ => wordI 0x0B#6 rs rt imm
  | .andi rt rs imm _ => wordI 0x0C#6 rs rt imm
  | .ori rt rs imm _ => wordI 0x0D#6 rs rt imm
  | .xori rt rs imm _ => wordI 0x0E#6 rs rt imm
  | .lui rt imm _ => wordI 0x0F#6 0#5 rt imm
  | .lb rt base off => wordI 0x20#6 base rt off
  | .lw rt base off => wordI 0x23#6 base rt off
  | .lbu rt base off => wordI 0x24#6 base rt off
  | .sb rt base off => wordI 0x28#6 base rt off
  | .sw rt base off => wordI 0x2B#6 base rt off

/-- The instruction's mnemonic, as the table spells it. -/
def Instr.mnemonic : Instr → String
  | .nop => "nop"
  | .sll _ _ _ => "sll"
  | .srl _ _ _ => "srl"
  | .sra _ _ _ => "sra"
  | .sllv _ _ _ => "sllv"
  | .srlv _ _ _ => "srlv"
  | .srav _ _ _ => "srav"
  | .jr _ => "jr"
  | .jalr _ => "jalr"
  | .movz _ _ _ => "movz"
  | .movn _ _ _ => "movn"
  | .addu _ _ _ => "addu"
  | .subu _ _ _ => "subu"
  | .and _ _ _ => "and"
  | .or _ _ _ => "or"
  | .xor _ _ _ => "xor"
  | .nor _ _ _ => "nor"
  | .slt _ _ _ => "slt"
  | .sltu _ _ _ => "sltu"
  | .bltz _ _ => "bltz"
  | .bgez _ _ => "bgez"
  | .j _ => "j"
  | .jal _ => "jal"
  | .beq _ _ _ => "beq"
  | .bne _ _ _ => "bne"
  | .blez _ _ => "blez"
  | .bgtz _ _ => "bgtz"
  | .addiu _ _ _ _ => "addiu"
  | .slti _ _ _ _ => "slti"
  | .sltiu _ _ _ _ => "sltiu"
  | .andi _ _ _ _ => "andi"
  | .ori _ _ _ _ => "ori"
  | .xori _ _ _ _ => "xori"
  | .lui _ _ _ => "lui"
  | .lb _ _ _ => "lb"
  | .lw _ _ _ => "lw"
  | .lbu _ _ _ => "lbu"
  | .sb _ _ _ => "sb"
  | .sw _ _ _ => "sw"

end Sys2Proof
end

