-- ==== Sys2Proof/Machine/Flags.lean ====
section
/-! DEFINITION. The conditions. The engine has no status flags and no condition codes: a condition is computed from register values each time (10_state.md R36). -/

namespace Sys2Proof.Machine

/-- The result of a set-on-less-than: exactly 1 or 0 (42_reg_alu.md R186). -/
def flagWord (c : Bool) : Word := if c then 1#32 else 0#32

/-- Signed comparison of words (42_reg_alu.md R186, 41_imm_alu.md R165). -/
def signedLess (a b : Word) : Bool := decide (a.toInt < b.toInt)

/-- Unsigned comparison of words (42_reg_alu.md R187, 41_imm_alu.md R166). -/
def unsignedLess (a b : Word) : Bool := decide (a.toNat < b.toNat)

/-- `beq` (45_control_transfer.md R248). -/
def condEq (a b : Word) : Bool := decide (a = b)

/-- `bne` (45_control_transfer.md R249). -/
def condNe (a b : Word) : Bool := decide (a ≠ b)

/-- `bltz` (45_control_transfer.md R250). -/
def condLtz (a : Word) : Bool := decide (a.toInt < 0)

/-- `blez` (45_control_transfer.md R251). -/
def condLez (a : Word) : Bool := decide (a.toInt ≤ 0)

/-- `bgtz` (45_control_transfer.md R252). -/
def condGtz (a : Word) : Bool := decide (0 < a.toInt)

/-- `bgez` (45_control_transfer.md R253). -/
def condGez (a : Word) : Bool := decide (0 ≤ a.toInt)

end Sys2Proof.Machine
end

