-- ==== Sys2Proof/Machine/Operands.lean ====
section
/-! DEFINITION. Operand assembly: what the fields of a record and the captured registers become (30_encoding.md R82). -/

namespace Sys2Proof.Machine

/-- The immediate of `addiu`, `slti`, `sltiu`: sign-extended to 32 bits (30_encoding.md R82). -/
def signedImm (imm : Field16) : Word := imm.signExtend 32

/-- The immediate of `andi`, `ori`, `xori`: the raw zero-extended 16 bits (30_encoding.md R82). -/
def unsignedImm (imm : Field16) : Word := imm.zeroExtend 32

/-- The immediate of `lui`: in the upper half, lower half zero (30_encoding.md R82). -/
def upperImm (imm : Field16) : Word := imm ++ 0x0000#16

/-- The shift amount of a register form: the low 5 bits of the amount register (44_shifts.md R210). -/
def regShift (amount : Word) : Nat := (amount.extractLsb' 0 5).toNat

/-- The effective address of a load or store, as an integer (20_memory.md R50). -/
def effectiveAddress (base : Word) (off : Field16) : Int :=
  base.toInt + (off.signExtend 32).toInt

/-- The target of `j` and `jal`, from the pc at handler entry (45_control_transfer.md R240). -/
def jumpTarget (pcE : Word) (index : Index26) : Word := pcE.extractLsb' 28 4 ++ index ++ 0b00#2

/-- The target of a conditional branch: an offset in instructions from the delay-slot instruction,
whose address is the pc at handler entry (45_control_transfer.md R241). -/
def branchTarget (pcE : Word) (off : Field16) : Word := pcE + (off.signExtend 32 <<< 2)

/-- The link value: the address after the delay-slot instruction (45_control_transfer.md R242). -/
def linkValue (pcE : Word) : Word := pcE + 4#32

end Sys2Proof.Machine
end

