-- ==== Sys2Proof/Machine/State.lean ====
section
/-! DEFINITION. The state of the engine, whole (10_state.md R20 to R36), the ways a step stops, and the state after reset. -/

namespace Sys2Proof.Machine

/-- The ten diagnostic kinds, a closed set (60_exceptions.md R300). `invalidRegister` and `unknownValue`
are never raised: such a program is refused (30_encoding.md R110). -/
inductive DiagKind where
  | labelDigits
  | duplicateLabel
  | undefinedLabel
  | invalidInstruction
  | unsupportedOperation
  | invalidRegister
  | unknownValue
  | immediateOverflow
  | invalidMemoryLocation
  | nestedTransfer
  deriving DecidableEq, Repr

/-- An entry of the diagnostics stream: a source line and a kind (10_state.md R34, 60_exceptions.md R301). -/
structure Diagnostic where
  line : Nat
  kind : DiagKind
  deriving DecidableEq, Repr

/-- Data memory, as the cells that differ from what an unlisted address reads as (10_state.md R32).
Its canonical form is `Memory.wf`. -/
abbrev Memory := List Host.Cell

/-- All the state the spec gives the engine (10_state.md R36). -/
structure State where
  /-- The general registers x[0] to x[31] (10_state.md R20). -/
  regs : Vector Word 32
  /-- The program counter, a byte offset into the program (10_state.md R27). -/
  pc : Word
  /-- The delay-slot flag (10_state.md R29). -/
  inDelaySlot : Bool
  /-- The current-instruction record: the fetched program index (10_state.md R30). -/
  curIndex : Nat
  /-- The current-instruction record: that entry's source line (10_state.md R30). -/
  curLine : Nat
  /-- Data memory `M` (10_state.md R32). -/
  mem : Memory
  /-- The program store `PROG`, read by fetch only and never written (10_state.md R26, R33). -/
  prog : List Entry
  /-- The diagnostics stream `D`, oldest first (10_state.md R34). -/
  diags : List Diagnostic
  /-- The launch parameter `LINK_TIMING`, fixed for the instance (45_control_transfer.md R233). -/
  linkTiming : LinkTiming
  deriving DecidableEq, Repr

/-- The model faults (40_cycle.md R143). Each carries the state it keeps, "every effect made before the
fault"; that state is not final, and no later command has a transition (log 8). -/
inductive Fault where
  /-- A nested step found the pc past the program's end (40_cycle.md R131). Raised by the delay slot of a
  transfer at the last entry; safe: the spec gives the original no behaviour there. -/
  | delaySlotPastEnd (kept : State)
  /-- A fetch at an in-bounds pc that is not a multiple of 4 (40_cycle.md R132). Raised by `step` after a
  `jr` or `jalr`; safe: the spec gives the original no behaviour there. -/
  | misalignedFetch (kept : State)
  deriving DecidableEq, Repr

/-- Why an instruction has no meaning. -/
inductive Refusal where
  /-- The instruction is not modelled yet. Raised by no arm of `exec`: every instruction has its meaning. -/
  | notModelled (mnemonic : String)
  deriving DecidableEq, Repr

/-- The engine right after reset (10_state.md R35, 70_reset_and_hazards.md R330), built from the empty
program text with the launch parameters `LaunchParams.default`: the instance of R332, halted at reset.
The values the spec leaves to launch parameters are DESIGN CHOICES, unsafe (log 1 to 5). -/
def State.reset : State where
  regs := Vector.replicate 32 0#32
  pc := 0#32
  inDelaySlot := false
  curIndex := 0
  curLine := 0
  mem := []
  prog := []
  diags := []
  linkTiming := .beforeDelaySlot

end Sys2Proof.Machine
end

