-- ==== Sys2Proof/Machine/Ops.lean ====
section
/-! DEFINITION. The named operations over registers, memory, the diagnostics stream and the program store; `State.diag` is what this hardware has in the place of taking an exception (00_scope.md R10, 60_exceptions.md R303, R306). -/

namespace Sys2Proof.Machine

/-! ## What a step answers -/

/-- The three outcomes of a step of this engine. -/
abbrev Result := Host.Outcome State Fault Refusal

/-- A result with its next state, if it has one, changed by `f`; a fault or a refusal stays. -/
def onNext (f : State → State) : Result → Result
  | .next s => .next (f s)
  | .fault r => .fault r
  | .refused r => .refused r

/-! ## Registers -/

/-- `x[i]` (00_scope.md R10). -/
def State.readReg (s : State) (i : RegIdx) : Word := s.regs[i.toNat]'i.isLt

/-- `x[i] <- v` (00_scope.md R10). A write to register 0 takes place, and stands until the step's last
action forces it back (10_state.md R22). -/
def State.writeReg (s : State) (i : RegIdx) (v : Word) : State :=
  { s with regs := s.regs.set i.toNat v i.isLt }

/-- The last action of every step: register 0 is forced back to zero (10_state.md R22, 40_cycle.md R130). -/
def State.forceZero (s : State) : State := s.writeReg zeroReg 0#32

/-! ## Diagnostics -/

/-- `diag(kind)`: append `(curLine, kind)` to the diagnostics stream and change nothing else
(60_exceptions.md R301). A diagnostic never changes control flow (40_cycle.md R137). -/
def State.diag (s : State) (kind : DiagKind) : State :=
  { s with diags := s.diags ++ [⟨s.curLine, kind⟩] }

/-- The numeric code of a kind (60_exceptions.md R300). -/
def DiagKind.code : DiagKind → Nat
  | .labelDigits => 1
  | .duplicateLabel => 2
  | .undefinedLabel => 3
  | .invalidInstruction => 4
  | .unsupportedOperation => 5
  | .invalidRegister => 6
  | .unknownValue => 7
  | .immediateOverflow => 8
  | .invalidMemoryLocation => 9
  | .nestedTransfer => 10

/-! ## Data memory -/

/-- What an address that is not listed reads as (DESIGN CHOICE, unsafe at reset: log 2). -/
def Memory.unlisted : Byte := 0x00#8

/-- The byte at an address. -/
def Memory.read : Memory → Nat → Byte
  | [], _ => Memory.unlisted
  | (b, w) :: m, a => if b = a then w else Memory.read m a

/-- Memory with one byte replaced, in canonical form again. -/
def Memory.write : Memory → Nat → Byte → Memory
  | [], a, v => if v = Memory.unlisted then [] else [(a, v)]
  | (b, w) :: m, a, v =>
    if a < b then (if v = Memory.unlisted then (b, w) :: m else (a, v) :: (b, w) :: m)
    else if a = b then (if v = Memory.unlisted then m else (a, v) :: m)
    else (b, w) :: Memory.write m a v

/-- The canonical form: addresses strictly rising, all inside [0, 2^24), and no cell that holds what an
unlisted address reads as (10_state.md R32). -/
abbrev Memory.wf (m : Memory) : Prop :=
  m.Pairwise (fun c d => c.1 < d.1) ∧ ∀ c ∈ m, c.1 < memSize ∧ c.2 ≠ Memory.unlisted

/-- `MemRead(a, 1)` (20_memory.md R56). -/
def Memory.read1 (m : Memory) (a : Nat) : Byte := m.read a

/-- `MemRead(a, 4)`, little-endian (20_memory.md R55, R56). -/
def Memory.read4 (m : Memory) (a : Nat) : Word :=
  m.read (a + 3) ++ m.read (a + 2) ++ m.read (a + 1) ++ m.read a

/-- `MemWrite(a, 1, v)` (20_memory.md R56). -/
def Memory.write1 (m : Memory) (a : Nat) (v : Word) : Memory := m.write a (v.extractLsb' 0 8)

/-- `MemWrite(a, 4, v)`, little-endian (20_memory.md R55, R56). -/
def Memory.write4 (m : Memory) (a : Nat) (v : Word) : Memory :=
  (((m.write a (v.extractLsb' 0 8)).write (a + 1) (v.extractLsb' 8 8)).write
    (a + 2) (v.extractLsb' 16 8)).write (a + 3) (v.extractLsb' 24 8)

/-- The memory that holds the given cells, those outside [0, 2^24) left out; of two cells with one
address the later one stands. It turns `INIT_MEM` into its canonical form (00_scope.md R8). -/
def Memory.ofCells (cells : List Host.Cell) : Memory :=
  cells.foldl (fun m c => if c.1 < memSize then m.write c.1 c.2 else m) []

/-- `inRange(EA, n)`: the whole access lies in [0, 2^24) (20_memory.md R52). -/
def inRange (ea : Int) (n : Nat) : Bool := decide (0 ≤ ea ∧ ea + n - 1 ≤ (memSize : Int) - 1)

/-- A load of `n` bytes: the base is read, the range checked, and the destination written with the value
read, or with 0 and one diagnostic (46_memory_ops.md R270, 20_memory.md R53). -/
def State.load (s : State) (rt base : RegIdx) (off : Field16) (n : Nat) (value : Memory → Nat → Word) : State :=
  let ea := effectiveAddress (s.readReg base) off
  if inRange ea n then s.writeReg rt (value s.mem ea.toNat)
  else (s.diag .invalidMemoryLocation).writeReg rt 0#32

/-- A store of `n` bytes: the base and the value are read, the range checked, and memory written, or one
diagnostic appended and no byte written (46_memory_ops.md R270, 20_memory.md R53). -/
def State.store (s : State) (rt base : RegIdx) (off : Field16) (n : Nat) (write : Memory → Nat → Word → Memory) :
    State :=
  let ea := effectiveAddress (s.readReg base) off
  if inRange ea n then { s with mem := write s.mem ea.toNat (s.readReg rt) }
  else s.diag .invalidMemoryLocation

/-! ## Immediates -/

/-- An immediate instruction: the overflow diagnostic first, if the literal was too large, and then the
result from the source register's value (41_imm_alu.md R160). -/
def State.immediate (s : State) (rt : RegIdx) (ovf : Bool) (result : Word) : State :=
  (if ovf then s.diag .immediateOverflow else s).writeReg rt result

/-! ## Fetch -/

/-- Halted: the pc is not within program bounds (40_cycle.md R139, 10_state.md R28). -/
def State.halted (s : State) : Bool := decide (4 * s.prog.length ≤ s.pc.toNat)

/-- What a fetch finds (40_cycle.md R130). -/
inductive Fetched where
  | pastEnd
  | misaligned
  | entry (r : Record) (s : State)
  deriving DecidableEq, Repr

/-- The state with an entry fetched: the current-instruction record set, and the pc advanced before
dispatch (10_state.md R30, 40_cycle.md R130). -/
def State.fetched (s : State) (e : Entry) : State :=
  { s with curIndex := s.pc.toNat / 4, curLine := e.line, pc := s.pc + 4#32 }

/-- Fetch: the bounds test, the alignment test, and then the entry the pc selects (40_cycle.md R130 to
R132). The pc is within bounds exactly when its index is (`fetch_pastEnd_iff`). -/
def State.fetch (s : State) : Fetched :=
  match s.prog[s.pc.toNat / 4]? with
  | none => .pastEnd
  | some e => if s.pc.toNat % 4 ≠ 0 then .misaligned else .entry e.record (s.fetched e)

/-! ## Launch and observation -/

/-- The state an instance starts in, from its launch parameters and the front end's output
(10_state.md R35, 70_reset_and_hazards.md R330.4). -/
def State.launch (p : LaunchParams) (prog : List Entry) (diags : List Diagnostic) : State where
  regs := ⟨(0#32 :: p.initRegs.toList).toArray, by simp⟩
  pc := 0#32
  inDelaySlot := false
  curIndex := p.preFetchIndex
  curLine := p.preFetchLine
  mem := Memory.ofCells p.initMem
  prog := prog
  diags := diags
  linkTiming := p.linkTiming

/-- The observation port's register snapshot: each register as a signed 32-bit integer (10_state.md R37). -/
def State.snapshot (s : State) : List Int := s.regs.toList.map BitVec.toInt

end Sys2Proof.Machine
end

