-- ==== Sys2Proof/Machine/CondMove.lean ====
section
/-! DEFINITION. Conditional moves (43_cond_move.md). -/

namespace Sys2Proof.Machine

/-- `movn rd, rs, rt`: move if `x[rt]` is not zero, otherwise no effect (43_cond_move.md R200). -/
def execMovn (rd rs rt : RegIdx) (s : State) : Result :=
  .next (if condNe (s.readReg rt) 0#32 then s.writeReg rd (s.readReg rs) else s)

/-- `movz rd, rs, rt`: move if `x[rt]` is zero, otherwise no effect (43_cond_move.md R201). -/
def execMovz (rd rs rt : RegIdx) (s : State) : Result :=
  .next (if condEq (s.readReg rt) 0#32 then s.writeReg rd (s.readReg rs) else s)

end Sys2Proof.Machine
end

