-- ==== Sys2Proof/Machine/ImmAlu.lean ====
section
/-! DEFINITION. Immediate arithmetic and logic (41_imm_alu.md). -/

namespace Sys2Proof.Machine

/-- `addiu rt, rs, imm` (41_imm_alu.md R161). -/
def execAddiu (rt rs : RegIdx) (imm : Field16) (ovf : Bool) (s : State) : Result :=
  .next (s.immediate rt ovf (s.readReg rs + signedImm imm))

/-- `andi rt, rs, imm` (41_imm_alu.md R162). -/
def execAndi (rt rs : RegIdx) (imm : Field16) (ovf : Bool) (s : State) : Result :=
  .next (s.immediate rt ovf (s.readReg rs &&& unsignedImm imm))

/-- `ori rt, rs, imm` (41_imm_alu.md R163). -/
def execOri (rt rs : RegIdx) (imm : Field16) (ovf : Bool) (s : State) : Result :=
  .next (s.immediate rt ovf (s.readReg rs ||| unsignedImm imm))

/-- `xori rt, rs, imm` (41_imm_alu.md R164). -/
def execXori (rt rs : RegIdx) (imm : Field16) (ovf : Bool) (s : State) : Result :=
  .next (s.immediate rt ovf (s.readReg rs ^^^ unsignedImm imm))

/-- `slti rt, rs, imm` (41_imm_alu.md R165). -/
def execSlti (rt rs : RegIdx) (imm : Field16) (ovf : Bool) (s : State) : Result :=
  .next (s.immediate rt ovf (flagWord (signedLess (s.readReg rs) (signedImm imm))))

/-- `sltiu rt, rs, imm` (41_imm_alu.md R166). -/
def execSltiu (rt rs : RegIdx) (imm : Field16) (ovf : Bool) (s : State) : Result :=
  .next (s.immediate rt ovf (flagWord (unsignedLess (s.readReg rs) (signedImm imm))))

/-- `lui rt, imm` (41_imm_alu.md R167). -/
def execLui (rt : RegIdx) (imm : Field16) (ovf : Bool) (s : State) : Result :=
  .next (s.immediate rt ovf (upperImm imm))

end Sys2Proof.Machine
end

