-- ==== Sys2Proof/Machine/LoadStore.lean ====
section
/-! DEFINITION. Loads and stores (46_memory_ops.md). -/

namespace Sys2Proof.Machine

/-- `lw rt, off(base)` (46_memory_ops.md R271). -/
def execLw (rt base : RegIdx) (off : Field16) (s : State) : Result :=
  .next (s.load rt base off 4 Memory.read4)

/-- `lb rt, off(base)`: the byte sign-extended (46_memory_ops.md R273). -/
def execLb (rt base : RegIdx) (off : Field16) (s : State) : Result :=
  .next (s.load rt base off 1 (fun m a => (m.read1 a).signExtend 32))

/-- `lbu rt, off(base)`: the byte zero-extended (46_memory_ops.md R274). -/
def execLbu (rt base : RegIdx) (off : Field16) (s : State) : Result :=
  .next (s.load rt base off 1 (fun m a => (m.read1 a).zeroExtend 32))

/-- `sw rt, off(base)` (46_memory_ops.md R272). -/
def execSw (rt base : RegIdx) (off : Field16) (s : State) : Result :=
  .next (s.store rt base off 4 Memory.write4)

/-- `sb rt, off(base)`: the low byte is stored (46_memory_ops.md R275). -/
def execSb (rt base : RegIdx) (off : Field16) (s : State) : Result :=
  .next (s.store rt base off 1 Memory.write1)

end Sys2Proof.Machine
end

