-- ==== Sys2Proof/Machine/NoOp.lean ====
section
/-! DEFINITION. The no-op, and the two records that spell no instruction (40_cycle.md section 2). -/

namespace Sys2Proof.Machine

/-- `nop` (40_cycle.md R134). -/
def execNop (s : State) : Result := .next s

/-- `INVALID`: one diagnostic and nothing else (40_cycle.md R135). -/
def execInvalid (s : State) : Result := .next (s.diag .invalidInstruction)

/-- `UNSUP`: one diagnostic and nothing else (40_cycle.md R136). -/
def execUnsup (s : State) : Result := .next (s.diag .unsupportedOperation)

end Sys2Proof.Machine
end

