-- ==== Sys2Proof/Machine/RegAlu.lean ====
section
/-! DEFINITION. Register arithmetic and logic (42_reg_alu.md). -/

namespace Sys2Proof.Machine

/-- `addu rd, rs, rt` (42_reg_alu.md R180). -/
def execAddu (rd rs rt : RegIdx) (s : State) : Result :=
  .next (s.writeReg rd (s.readReg rs + s.readReg rt))

/-- `subu rd, rs, rt` (42_reg_alu.md R181). -/
def execSubu (rd rs rt : RegIdx) (s : State) : Result :=
  .next (s.writeReg rd (s.readReg rs - s.readReg rt))

/-- `and rd, rs, rt` (42_reg_alu.md R182). -/
def execAnd (rd rs rt : RegIdx) (s : State) : Result :=
  .next (s.writeReg rd (s.readReg rs &&& s.readReg rt))

/-- `or rd, rs, rt` (42_reg_alu.md R183). -/
def execOr (rd rs rt : RegIdx) (s : State) : Result :=
  .next (s.writeReg rd (s.readReg rs ||| s.readReg rt))

/-- `xor rd, rs, rt` (42_reg_alu.md R184). -/
def execXor (rd rs rt : RegIdx) (s : State) : Result :=
  .next (s.writeReg rd (s.readReg rs ^^^ s.readReg rt))

/-- `nor rd, rs, rt` (42_reg_alu.md R185). -/
def execNor (rd rs rt : RegIdx) (s : State) : Result :=
  .next (s.writeReg rd (~~~(s.readReg rs ||| s.readReg rt)))

/-- `slt rd, rs, rt` (42_reg_alu.md R186). -/
def execSlt (rd rs rt : RegIdx) (s : State) : Result :=
  .next (s.writeReg rd (flagWord (signedLess (s.readReg rs) (s.readReg rt))))

/-- `sltu rd, rs, rt` (42_reg_alu.md R187). -/
def execSltu (rd rs rt : RegIdx) (s : State) : Result :=
  .next (s.writeReg rd (flagWord (unsignedLess (s.readReg rs) (s.readReg rt))))

end Sys2Proof.Machine
end

