-- ==== Sys2Proof/Machine/Shifts.lean ====
section
/-! DEFINITION. Shifts (44_shifts.md). -/

namespace Sys2Proof.Machine

/-- `sll rd, rt, sa` (44_shifts.md R211). -/
def execSll (rd rt : RegIdx) (sa : ShAmt) (s : State) : Result :=
  .next (s.writeReg rd (s.readReg rt <<< sa.toNat))

/-- `srl rd, rt, sa` (44_shifts.md R212). -/
def execSrl (rd rt : RegIdx) (sa : ShAmt) (s : State) : Result :=
  .next (s.writeReg rd (s.readReg rt >>> sa.toNat))

/-- `sra rd, rt, sa` (44_shifts.md R213). -/
def execSra (rd rt : RegIdx) (sa : ShAmt) (s : State) : Result :=
  .next (s.writeReg rd ((s.readReg rt).sshiftRight sa.toNat))

/-- `sllv rd, rt, rs` (44_shifts.md R214). -/
def execSllv (rd rt rs : RegIdx) (s : State) : Result :=
  .next (s.writeReg rd (s.readReg rt <<< regShift (s.readReg rs)))

/-- `srlv rd, rt, rs` (44_shifts.md R215). -/
def execSrlv (rd rt rs : RegIdx) (s : State) : Result :=
  .next (s.writeReg rd (s.readReg rt >>> regShift (s.readReg rs)))

/-- `srav rd, rt, rs` (44_shifts.md R216). -/
def execSrav (rd rt rs : RegIdx) (s : State) : Result :=
  .next (s.writeReg rd ((s.readReg rt).sshiftRight (regShift (s.readReg rs))))

end Sys2Proof.Machine
end

