-- ==== Sys2Proof/Machine/DelaySlot.lean ====
section
/-! DEFINITION. The delay slot: the nested step a transfer makes, and the one transfer handler (45_control_transfer.md R230 to R238). -/

namespace Sys2Proof.Machine

/-- A transfer executed in a delay slot: one diagnostic, and nothing else (45_control_transfer.md R234). -/
def nestedTransfer (s : State) : Result := .next (s.diag .nestedTransfer)

/-- The dispatch of the nested step: `exec` of `Machine/Dispatch.lean` at a state in a delay slot, where a
transfer is a nested transfer (45_control_transfer.md R231, R238; `slotExec_eq_exec`, log 18). -/
def slotExec (i : Instr) (s : State) : Result :=
  match i with
  | .nop => execNop s
  | .addiu rt rs imm ovf => execAddiu rt rs imm ovf s
  | .andi rt rs imm ovf => execAndi rt rs imm ovf s
  | .ori rt rs imm ovf => execOri rt rs imm ovf s
  | .xori rt rs imm ovf => execXori rt rs imm ovf s
  | .slti rt rs imm ovf => execSlti rt rs imm ovf s
  | .sltiu rt rs imm ovf => execSltiu rt rs imm ovf s
  | .lui rt imm ovf => execLui rt imm ovf s
  | .addu rd rs rt => execAddu rd rs rt s
  | .subu rd rs rt => execSubu rd rs rt s
  | .and rd rs rt => execAnd rd rs rt s
  | .or rd rs rt => execOr rd rs rt s
  | .xor rd rs rt => execXor rd rs rt s
  | .nor rd rs rt => execNor rd rs rt s
  | .slt rd rs rt => execSlt rd rs rt s
  | .sltu rd rs rt => execSltu rd rs rt s
  | .movn rd rs rt => execMovn rd rs rt s
  | .movz rd rs rt => execMovz rd rs rt s
  | .sll rd rt sa => execSll rd rt sa s
  | .srl rd rt sa => execSrl rd rt sa s
  | .sra rd rt sa => execSra rd rt sa s
  | .sllv rd rt rs => execSllv rd rt rs s
  | .srlv rd rt rs => execSrlv rd rt rs s
  | .srav rd rt rs => execSrav rd rt rs s
  | .lw rt base off => execLw rt base off s
  | .lb rt base off => execLb rt base off s
  | .lbu rt base off => execLbu rt base off s
  | .sw rt base off => execSw rt base off s
  | .sb rt base off => execSb rt base off s
  | .j _ => nestedTransfer s
  | .jal _ => nestedTransfer s
  | .jr _ => nestedTransfer s
  | .jalr _ => nestedTransfer s
  | .beq _ _ _ => nestedTransfer s
  | .bne _ _ _ => nestedTransfer s
  | .bltz _ _ => nestedTransfer s
  | .blez _ _ => nestedTransfer s
  | .bgtz _ _ => nestedTransfer s
  | .bgez _ _ => nestedTransfer s

/-- The dispatch of the nested step on a record (40_cycle.md R133). -/
def slotExecRecord (r : Record) (s : State) : Result :=
  match r with
  | .op i => slotExec i s
  | .unsup => execUnsup s
  | .invalid => execInvalid s

/-- `step(nested = true)`: the delay-slot instruction is fetched and executed and register 0 forced; past
the program's end it is a model fault (40_cycle.md R130 to R132). -/
def slotStep (s : State) : Result :=
  match s.fetch with
  | .pastEnd => .fault (.delaySlotPastEnd s)
  | .misaligned => .fault (.misalignedFetch s)
  | .entry r t => onNext State.forceZero (slotExecRecord r t)

/-- What distinguishes one transfer from another, on the operands captured at handler entry
(45_control_transfer.md R230, R255): whether it links, whether it is taken, and where it goes. -/
structure Transfer where
  links : Bool
  taken : Bool
  target : Word
  deriving DecidableEq, Repr

/-- Register 31 is written with the link value if the transfer links and `LINK_TIMING` is `timing`
(45_control_transfer.md R233, R242). -/
def State.link (s : State) (t : Transfer) (timing : LinkTiming) (pcE : Word) : State :=
  if t.links && decide (s.linkTiming = timing) then s.writeReg linkReg (linkValue pcE) else s

/-- The handler up to the delay slot: the link is written now if `LINK_TIMING` says so, and the flag is
set (45_control_transfer.md R232, R233). -/
def State.enterSlot (s : State) (t : Transfer) : State :=
  { s.link t .beforeDelaySlot s.pc with inDelaySlot := true }

/-- The handler after the delay slot, whose address was `pcE`: the link is written now if `LINK_TIMING` says
so, the pc committed if the transfer is taken, and the flag cleared (45_control_transfer.md R232, R233, R235, R236). -/
def State.leaveSlot (s : State) (t : Transfer) (pcE : Word) : State :=
  { s.link t .afterDelaySlot pcE with pc := if t.taken then t.target else s.pc, inDelaySlot := false }

/-- The transfer handler, every transfer's (45_control_transfer.md R232): nested, it is refused with a
diagnostic (R234); else it runs its delay slot exactly once and then commits. A model fault in the slot
ends it at once (R236). -/
def transfer (t : Transfer) (s : State) : Result :=
  if s.inDelaySlot then nestedTransfer s
  else onNext (fun u => u.leaveSlot t s.pc) (slotStep (s.enterSlot t))

end Sys2Proof.Machine
end

