-- ==== Sys2Proof/Machine/ControlTransfer.lean ====
section
/-! DEFINITION. The ten transfers (45_control_transfer.md section 3). Every handler sees the pc already advanced (40_cycle.md R133), and captures its operands at entry (45_control_transfer.md R255). -/

namespace Sys2Proof.Machine

/-- A conditional branch: no link, and the branch target of R241. -/
def branch (taken : Bool) (off : Field16) (s : State) : Result :=
  transfer ⟨false, taken, branchTarget s.pc off⟩ s

/-- `j label` (45_control_transfer.md R244). -/
def execJ (index : Index26) (s : State) : Result := transfer ⟨false, true, jumpTarget s.pc index⟩ s

/-- `jal label` (45_control_transfer.md R245). -/
def execJal (index : Index26) (s : State) : Result := transfer ⟨true, true, jumpTarget s.pc index⟩ s

/-- `jr rs` (45_control_transfer.md R246). -/
def execJr (rs : RegIdx) (s : State) : Result := transfer ⟨false, true, s.readReg rs⟩ s

/-- `jalr rs`, which always links register 31 (45_control_transfer.md R247). -/
def execJalr (rs : RegIdx) (s : State) : Result := transfer ⟨true, true, s.readReg rs⟩ s

/-- `beq rs, rt, label` (45_control_transfer.md R248). -/
def execBeq (rs rt : RegIdx) (off : Field16) (s : State) : Result :=
  branch (condEq (s.readReg rs) (s.readReg rt)) off s

/-- `bne rs, rt, label` (45_control_transfer.md R249). -/
def execBne (rs rt : RegIdx) (off : Field16) (s : State) : Result :=
  branch (condNe (s.readReg rs) (s.readReg rt)) off s

/-- `bltz rs, label` (45_control_transfer.md R250). -/
def execBltz (rs : RegIdx) (off : Field16) (s : State) : Result := branch (condLtz (s.readReg rs)) off s

/-- `blez rs, label` (45_control_transfer.md R251). -/
def execBlez (rs : RegIdx) (off : Field16) (s : State) : Result := branch (condLez (s.readReg rs)) off s

/-- `bgtz rs, label` (45_control_transfer.md R252). -/
def execBgtz (rs : RegIdx) (off : Field16) (s : State) : Result := branch (condGtz (s.readReg rs)) off s

/-- `bgez rs, label` (45_control_transfer.md R253). -/
def execBgez (rs : RegIdx) (off : Field16) (s : State) : Result := branch (condGez (s.readReg rs)) off s

end Sys2Proof.Machine
end

