-- ==== Sys2Proof/Machine/Dispatch.lean ====
section
/-! DEFINITION. Dispatch: each instruction selects exactly one handler (40_cycle.md R130, R133). The pc is already advanced. -/

namespace Sys2Proof.Machine

def exec (i : Instr) (s : State) : Host.Outcome State Fault Refusal :=
  match i with
  | .nop => Sys2Proof.Machine.execNop s
  | .sll rd rt sa => Sys2Proof.Machine.execSll rd rt sa s
  | .srl rd rt sa => Sys2Proof.Machine.execSrl rd rt sa s
  | .sra rd rt sa => Sys2Proof.Machine.execSra rd rt sa s
  | .sllv rd rt rs => Sys2Proof.Machine.execSllv rd rt rs s
  | .srlv rd rt rs => Sys2Proof.Machine.execSrlv rd rt rs s
  | .srav rd rt rs => Sys2Proof.Machine.execSrav rd rt rs s
  | .jr rs => Sys2Proof.Machine.execJr rs s
  | .jalr rs => Sys2Proof.Machine.execJalr rs s
  | .movz rd rs rt => Sys2Proof.Machine.execMovz rd rs rt s
  | .movn rd rs rt => Sys2Proof.Machine.execMovn rd rs rt s
  | .addu rd rs rt => Sys2Proof.Machine.execAddu rd rs rt s
  | .subu rd rs rt => Sys2Proof.Machine.execSubu rd rs rt s
  | .and rd rs rt => Sys2Proof.Machine.execAnd rd rs rt s
  | .or rd rs rt => Sys2Proof.Machine.execOr rd rs rt s
  | .xor rd rs rt => Sys2Proof.Machine.execXor rd rs rt s
  | .nor rd rs rt => Sys2Proof.Machine.execNor rd rs rt s
  | .slt rd rs rt => Sys2Proof.Machine.execSlt rd rs rt s
  | .sltu rd rs rt => Sys2Proof.Machine.execSltu rd rs rt s
  | .bltz rs off => Sys2Proof.Machine.execBltz rs off s
  | .bgez rs off => Sys2Proof.Machine.execBgez rs off s
  | .j index => Sys2Proof.Machine.execJ index s
  | .jal index => Sys2Proof.Machine.execJal index s
  | .beq rs rt off => Sys2Proof.Machine.execBeq rs rt off s
  | .bne rs rt off => Sys2Proof.Machine.execBne rs rt off s
  | .blez rs off => Sys2Proof.Machine.execBlez rs off s
  | .bgtz rs off => Sys2Proof.Machine.execBgtz rs off s
  | .addiu rt rs imm ovf => Sys2Proof.Machine.execAddiu rt rs imm ovf s
  | .slti rt rs imm ovf => Sys2Proof.Machine.execSlti rt rs imm ovf s
  | .sltiu rt rs imm ovf => Sys2Proof.Machine.execSltiu rt rs imm ovf s
  | .andi rt rs imm ovf => Sys2Proof.Machine.execAndi rt rs imm ovf s
  | .ori rt rs imm ovf => Sys2Proof.Machine.execOri rt rs imm ovf s
  | .xori rt rs imm ovf => Sys2Proof.Machine.execXori rt rs imm ovf s
  | .lui rt imm ovf => Sys2Proof.Machine.execLui rt imm ovf s
  | .lb rt base off => Sys2Proof.Machine.execLb rt base off s
  | .lw rt base off => Sys2Proof.Machine.execLw rt base off s
  | .lbu rt base off => Sys2Proof.Machine.execLbu rt base off s
  | .sb rt base off => Sys2Proof.Machine.execSb rt base off s
  | .sw rt base off => Sys2Proof.Machine.execSw rt base off s

end Sys2Proof.Machine
end

