-- ==== Sys2Proof/Machine/Cycle.lean ====
section
/-! DEFINITION. The body of the top-level step, and the store of a word where it fetches (40_cycle.md R130). -/

namespace Sys2Proof.Machine

/-- The dispatch on a record: an instruction of the subset, or one of the two records that spell none
(40_cycle.md R133, R135, R136). -/
def execRecord (r : Record) (s : State) : Result :=
  match r with
  | .op i => exec i s
  | .unsup => execUnsup s
  | .invalid => execInvalid s

/-- `step(nested = false)` (40_cycle.md R130). A halted engine has no transition: the state stays as it is
(R139). -/
def topStep (s : State) : Result :=
  match s.fetch with
  | .pastEnd => .next s
  | .misaligned => .fault (.misalignedFetch s)
  | .entry r t => onNext State.forceZero (execRecord r t)

/-- `n` entries of `nop`, the first of them at index `first`, each on the line after its index (log 5). -/
def nopEntries (first n : Nat) : List Entry :=
  (List.range n).map (fun j => ⟨.op .nop, first + j + 1⟩)

/-- A program with the record `r` at index `k` and, for a transfer, an entry in its delay slot. The entries
there were are kept, their lines too; a missing entry is a `nop` (log 5). -/
def placeEntry (prog : List Entry) (k : Nat) (r : Record) : List Entry :=
  let before := prog.take k ++ nopEntries prog.length (k - prog.length)
  let line := ((prog[k]?).map Entry.line).getD (k + 1)
  let after := prog.drop (k + 1)
  before ++ ⟨r, line⟩ :: if r.isTransfer && after.isEmpty then nopEntries (k + 1) 1 else after

/-- The state with the record of a word stored at the entry the pc selects; a word the decoder refuses
(30_encoding.md R114) stores nothing (log 5). -/
def State.placeWord (s : State) (w : Word) : State :=
  match decodeWord w with
  | .record r => { s with prog := placeEntry s.prog (s.pc.toNat / 4) r }
  | .refused _ => s

end Sys2Proof.Machine
end

