-- ==== Sys2Proof/Machine/Step.lean ====
section
/-! DEFINITION. The engine's one transition, a top-level step (40_cycle.md R130, R140), and the host's store of an instruction where it fetches. -/

namespace Sys2Proof.Machine

/-- One top-level step: the `Step` command (40_cycle.md R140). -/
def step (s : State) : Host.Outcome State Fault Refusal := topStep s

/-- The state with the instruction of the word `w`, of `nbits` bits, stored where `step` fetches next: the
load of a program from outside the machine (log 5, 6). -/
def State.withFetchWord (s : State) (nbits w : Nat) : State :=
  s.placeWord (BitVec.ofNat 32 (w % 2 ^ nbits))

end Sys2Proof.Machine
end

