-- ==== Sys2Proof/Machine/FrontEnd.lean ====
section
/-! DEFINITION. The front end, which runs once, at construction: loader, linker and the decode of a line into its record (30_encoding.md R85 to R110, 70_reset_and_hazards.md R330). Program text is a list of characters (log 11). -/

namespace Sys2Proof.Machine

/-! ## Characters and text -/

/-- Program text, or a part of it. -/
abbrev Text := List Char

/-- White space: space, tab, line feed, vertical tab, form feed, carriage return (DESIGN CHOICE: log 11). -/
def isBlank (c : Char) : Bool :=
  c == ' ' || c == '\t' || c == '\n' || c == '\x0b' || c == '\x0c' || c == '\r'

/-- The text without the white space at either end. -/
def trim (t : Text) : Text := ((t.dropWhile isBlank).reverse.dropWhile isBlank).reverse

/-- The pieces of a text between the separators `sep`, in order; at least one. -/
def splitAt (sep : Char) : Text → List Text
  | [] => [[]]
  | c :: t =>
    if c = sep then [] :: splitAt sep t
    else match splitAt sep t with
      | [] => [[c]]
      | p :: ps => (c :: p) :: ps

/-- A line less its comment and the white space around it (30_encoding.md R90). -/
def stripLine (t : Text) : Text := trim (t.takeWhile (· ≠ '#'))

/-- The mnemonic and the operand list of an instruction line, or nothing if the line has no separator, that
is no white space after its first word (30_encoding.md R85, R97; 92_eei_decisions.md D25). The line is trimmed. -/
def splitMnemonic (t : Text) : Option (Text × Text) :=
  match t.dropWhile (fun c => !isBlank c) with
  | [] => none
  | rest => some ((t.takeWhile (fun c => !isBlank c)).map Char.toLower, trim rest)

/-- The operands of an operand list, each trimmed (30_encoding.md R85). -/
def operandTexts (t : Text) : List Text := (splitAt ',' t).map trim

/-! ## Loader (30_encoding.md section 3) -/

/-- An instruction line of the compacted program, with its source line (30_encoding.md R95). -/
structure SourceLine where
  text : Text
  line : Nat
  deriving DecidableEq, Repr

/-- What the loader has built so far: the compacted program, the label table (the newest binding first)
and the diagnostics. -/
structure LoaderState where
  lines : List SourceLine
  labels : List (Text × Nat)
  diags : List Diagnostic
  deriving DecidableEq, Repr

/-- The index a label is bound to: the last definition's (30_encoding.md R91, R93). -/
def labelIndex (labels : List (Text × Nat)) (name : Text) : Option Nat :=
  (labels.find? (fun b => b.1 == name)).map Prod.snd

/-- A label definition (30_encoding.md R92, R93). -/
def LoaderState.define (st : LoaderState) (line : Nat) (name : Text) : LoaderState :=
  if name.any Char.isDigit then { st with diags := st.diags ++ [⟨line, .labelDigits⟩] }
  else
    { st with
      labels := (name, st.lines.length) :: st.labels
      diags := if (labelIndex st.labels name).isSome then st.diags ++ [⟨line, .duplicateLabel⟩] else st.diags }

/-- One line of the text: a label definition, nothing, or an instruction line (30_encoding.md R90 to R95). -/
def LoaderState.line (st : LoaderState) (n : Nat) (raw : Text) : LoaderState :=
  let t := stripLine raw
  match t.getLast? with
  | none => st
  | some c =>
    if c = ':' then st.define n (trim t.dropLast)
    else { st with lines := st.lines ++ [⟨t, n⟩] }

/-- The loader's pass over the lines, the first of which has number `n`. -/
def loadLines (n : Nat) : List Text → LoaderState → LoaderState
  | [], st => st
  | t :: ts, st => loadLines (n + 1) ts (st.line n t)

/-- The loader: one pass over the text, lines counted from 1 (30_encoding.md R90). -/
def load (text : Text) : LoaderState := loadLines 1 (splitAt '\n' text) ⟨[], [], []⟩

/-! ## Operands (30_encoding.md section 2) -/

/-- The reasons the front end refuses a program (30_encoding.md R110). -/
inductive RefusedFor where
  /-- An operand that starts with `$` but names no register. -/
  | invalidRegister
  /-- An operand that is neither a register nor a decimal integer nor `offset($reg)`. -/
  | unknownValue
  /-- A subset mnemonic with the wrong operand count or kinds. -/
  | wrongOperands
  /-- An immediate literal below -32768. -/
  | immediateTooLow
  /-- A shift amount outside 0 to 31. -/
  | shiftAmount
  /-- A memory offset outside [-32768, 32767]. -/
  | memoryOffset
  /-- A branch whose linked offset does not fit 16 bits. -/
  | branchOffset
  /-- More than `N_MAX` instruction lines. -/
  | programTooLong
  deriving DecidableEq, Repr

/-- A refused program: the source line and the reason (30_encoding.md R110). -/
structure LoadRefusal where
  line : Nat
  reason : RefusedFor
  deriving DecidableEq, Repr

/-- A resolved operand (30_encoding.md R87 to R89). -/
inductive Operand where
  | reg (r : RegIdx)
  | int (v : Int)
  | mem (off : Field16) (base : RegIdx)
  deriving DecidableEq, Repr

/-- The 32 register names, in index order (10_state.md R21). -/
def registerNames : List String :=
  ["zero", "at", "v0", "v1", "a0", "a1", "a2", "a3"] ++
  ["t0", "t1", "t2", "t3", "t4", "t5", "t6", "t7"] ++
  ["s0", "s1", "s2", "s3", "s4", "s5", "s6", "s7"] ++
  ["t8", "t9", "k0", "k1", "gp", "sp", "fp", "ra"]

/-- The value of a decimal digit. -/
def digitValue (c : Char) : Nat := c.toNat - '0'.toNat

/-- The value of decimal digits, or nothing for any other text (30_encoding.md R88). -/
def decimalNat (t : Text) : Option Nat :=
  if !t.isEmpty && t.all Char.isDigit then some (t.foldl (fun n c => 10 * n + digitValue c) 0) else none

/-- A decimal integer: an optional sign and one or more decimal digits (30_encoding.md R88). -/
def decimalInt (t : Text) : Option Int :=
  match t with
  | '-' :: ds => (decimalNat ds).map (fun n => -(n : Int))
  | '+' :: ds => (decimalNat ds).map (fun n => (n : Int))
  | ds => (decimalNat ds).map (fun n => (n : Int))

/-- The register a text after the sigil names: one of the 32 names, in lower case, or a decimal index 0 to
31 without leading zeros (30_encoding.md R87; log 13). -/
def registerIndex (t : Text) : Option RegIdx :=
  match registerNames.findIdx? (fun n => n.toList == t) with
  | some i => some (BitVec.ofNat 5 i)
  | none =>
    match decimalNat t with
    | none => none
    | some n => if n < 32 && (n.repr.toList == t) then some (BitVec.ofNat 5 n) else none

/-- A register operand (30_encoding.md R87). -/
def resolveRegister (t : Text) : Except RefusedFor RegIdx :=
  match t with
  | '$' :: name => match registerIndex name with
    | some r => .ok r
    | none => .error .invalidRegister
  | _ => .error .unknownValue

/-- A memory operand `offset($reg)`, from the text before and after its opening bracket (30_encoding.md R89). -/
def resolveMemory (off rest : Text) : Except RefusedFor Operand :=
  match decimalInt off, rest.getLast? with
  | some v, some ')' =>
    match resolveRegister rest.dropLast with
    | .error e => .error e
    | .ok base =>
      if -32768 ≤ v ∧ v ≤ 32767 then .ok (.mem (BitVec.ofInt 16 v) base) else .error .memoryOffset
  | _, _ => .error .unknownValue

/-- Any operand but a label: a register if it starts with `$`, a memory operand if it has a bracket, else a
decimal integer (30_encoding.md R87 to R89). -/
def resolveOperand (t : Text) : Except RefusedFor Operand :=
  match t with
  | '$' :: _ => (resolveRegister t).map Operand.reg
  | _ =>
    match t.dropWhile (· ≠ '(') with
    | _ :: rest => resolveMemory (t.takeWhile (· ≠ '(')) rest
    | [] => match decimalInt t with
      | some v => .ok (.int v)
      | none => .error .unknownValue

/-- Operands resolved in order, up to the first that does not resolve. -/
def resolveAll : List Text → Except RefusedFor (List Operand)
  | [] => .ok []
  | t :: ts => match resolveOperand t with
    | .error e => .error e
    | .ok o => (resolveAll ts).map (o :: ·)

/-! ## The decode of a line (30_encoding.md section 5) and the linker (section 4) -/

/-- The operand shape of a mnemonic, and the record its operands make (30_encoding.md R80, R86). -/
inductive Shape where
  | r3 (make : RegIdx → RegIdx → RegIdx → Instr)
  | shift (make : RegIdx → RegIdx → ShAmt → Instr)
  | imm (make : RegIdx → RegIdx → Field16 → Bool → Instr)
  | upper (make : RegIdx → Field16 → Bool → Instr)
  | mem (make : RegIdx → RegIdx → Field16 → Instr)
  | jump (make : Index26 → Instr)
  | jumpReg (make : RegIdx → Instr)
  | branch2 (make : RegIdx → RegIdx → Field16 → Instr)
  | branch1 (make : RegIdx → Field16 → Instr)

/-- The 38 mnemonics of the subset, less the no-op keyword (30_encoding.md R84, R86). -/
def mnemonicShapes : List (String × Shape) :=
  [("addiu", .imm .addiu), ("andi", .imm .andi), ("ori", .imm .ori), ("xori", .imm .xori),
   ("slti", .imm .slti), ("sltiu", .imm .sltiu), ("lui", .upper .lui)] ++
  [("addu", .r3 .addu), ("subu", .r3 .subu), ("and", .r3 .and), ("or", .r3 .or), ("xor", .r3 .xor),
   ("nor", .r3 .nor), ("slt", .r3 .slt), ("sltu", .r3 .sltu), ("movn", .r3 .movn), ("movz", .r3 .movz)] ++
  [("sll", .shift .sll), ("srl", .shift .srl), ("sra", .shift .sra),
   ("sllv", .r3 .sllv), ("srlv", .r3 .srlv), ("srav", .r3 .srav)] ++
  [("j", .jump .j), ("jal", .jump .jal), ("jr", .jumpReg .jr), ("jalr", .jumpReg .jalr),
   ("beq", .branch2 .beq), ("bne", .branch2 .bne), ("bltz", .branch1 .bltz), ("blez", .branch1 .blez),
   ("bgtz", .branch1 .bgtz), ("bgez", .branch1 .bgez)] ++
  [("lw", .mem .lw), ("sw", .mem .sw), ("lb", .mem .lb), ("lbu", .mem .lbu), ("sb", .mem .sb)]

/-- The shape of a lowercased mnemonic of the subset. -/
def shapeOf (mnemonic : Text) : Option Shape :=
  (mnemonicShapes.find? (fun p => p.1.toList == mnemonic)).map Prod.snd

/-- The index field of a jump: the label's program index, or the sentinel `0x3ffffff` and the diagnostic
(30_encoding.md R98). -/
def linkJump (labels : List (Text × Nat)) (label : Text) : Index26 × List DiagKind :=
  match labelIndex labels label with
  | some k => (BitVec.ofNat 26 k, [])
  | none => (0x3FFFFFF#26, [.undefinedLabel])

/-- The offset field of a branch at index `k`: `labelIndex - (k + 1)`, or the sentinel `0x7fff` and the
diagnostic (30_encoding.md R99, R107). -/
def linkBranch (labels : List (Text × Nat)) (k : Nat) (label : Text) : Except RefusedFor (Field16 × List DiagKind) :=
  match labelIndex labels label with
  | some l =>
    let off : Int := (l : Int) - ((k : Int) + 1)
    if -32768 ≤ off ∧ off ≤ 32767 then .ok (BitVec.ofInt 16 off, []) else .error .branchOffset
  | none => .ok (0x7FFF#16, [.undefinedLabel])

/-- The immediate field and the `ovf` bit of a literal (30_encoding.md R104). -/
def immediateField (v : Int) : Except RefusedFor (Field16 × Bool) :=
  if v < -32768 then .error .immediateTooLow else .ok (BitVec.ofInt 16 v, decide (0xFFFF < v))

/-- What a line becomes: its record and the linker's diagnostics for it. -/
abbrev Assembled := Record × List DiagKind

/-- The record of resolved operands, for the shapes that name no label (30_encoding.md R86, R104 to R106). -/
def assembleOperands (shape : Shape) (ops : List Operand) : Except RefusedFor Instr :=
  match shape, ops with
  | .r3 make, [.reg a, .reg b, .reg c] => .ok (make a b c)
  | .shift make, [.reg a, .reg b, .int v] =>
    if 0 ≤ v ∧ v ≤ 31 then .ok (make a b (BitVec.ofInt 5 v)) else .error .shiftAmount
  | .imm make, [.reg a, .reg b, .int v] => (immediateField v).map (fun p => make a b p.1 p.2)
  | .upper make, [.reg a, .int v] => (immediateField v).map (fun p => make a p.1 p.2)
  | .mem make, [.reg a, .mem off base] => .ok (make a base off)
  | .jumpReg make, [.reg a] => .ok (make a)
  | _, _ => .error .wrongOperands

/-- The record of a line at index `k` whose mnemonic is of the subset. The last operand of a jump or branch
is the linker's, whatever its text (30_encoding.md R97 to R100, R103; log 15). -/
def assemble (labels : List (Text × Nat)) (k : Nat) (shape : Shape) (ops : List Text) :
    Except RefusedFor Assembled :=
  match shape, ops with
  | .jump make, [label] =>
    let (index, diags) := linkJump labels label
    .ok (.op (make index), diags)
  | .branch1 make, [a, label] =>
    match resolveRegister a, linkBranch labels k label with
    | .ok rs, .ok (off, diags) => .ok (.op (make rs off), diags)
    | .error e, _ => .error e
    | _, .error e => .error e
  | .branch2 make, [a, b, label] =>
    match resolveRegister a, resolveRegister b, linkBranch labels k label with
    | .ok rs, .ok rt, .ok (off, diags) => .ok (.op (make rs rt off), diags)
    | .error e, _, _ => .error e
    | _, .error e, _ => .error e
    | _, _, .error e => .error e
  | .jump _, _ | .branch1 _, _ | .branch2 _, _ => .error .wrongOperands
  | _, _ => match resolveAll ops with
    | .error e => .error e
    | .ok rs => (assembleOperands shape rs).map (fun i => (.op i, []))

/-- The record of a compacted line at index `k` (30_encoding.md R102, R103). -/
def decodeLine (labels : List (Text × Nat)) (k : Nat) (t : Text) : Except RefusedFor Assembled :=
  match splitMnemonic t with
  | none => .ok (if t.map Char.toLower = "nop".toList then .op .nop else .invalid, [])
  | some (mnemonic, ops) =>
    match shapeOf mnemonic with
    | some shape => assemble labels k shape (operandTexts ops)
    | none => (resolveAll (operandTexts ops)).map (fun _ => (.unsup, []))

/-- The linker and the one-time decode, over the compacted lines from index `k` on: the entries, and the
linker's diagnostics in program order (30_encoding.md R97 to R101, R109). -/
def decodeLines (labels : List (Text × Nat)) (k : Nat) : List SourceLine → Except LoadRefusal (List Entry × List Diagnostic)
  | [] => .ok ([], [])
  | l :: ls =>
    match decodeLine labels k l.text with
    | .error e => .error ⟨l.line, e⟩
    | .ok (r, kinds) =>
      (decodeLines labels (k + 1) ls).map
        (fun p => (⟨r, l.line⟩ :: p.1, kinds.map (Diagnostic.mk l.line) ++ p.2))

/-- The source line of the first entry past the longest admitted program (30_encoding.md R110). -/
def tooLongLine (lines : List SourceLine) : Nat := ((lines[nMax]?).map SourceLine.line).getD 0

/-- The front end: the program store and the load-time and link-time diagnostics of a program text, or a
refusal (30_encoding.md R90 to R110). -/
def frontEnd (text : Text) : Except LoadRefusal (List Entry × List Diagnostic) :=
  let st := load text
  if nMax < st.lines.length then .error ⟨tooLongLine st.lines, .programTooLong⟩
  else (decodeLines st.labels 0 st.lines).map (fun p => (p.1, st.diags ++ p.2))

/-- Reset: the construction of an engine from a program text and the launch parameters; a refused text has
no engine (70_reset_and_hazards.md R330). -/
def State.construct (p : LaunchParams) (text : Text) : Except LoadRefusal State :=
  (frontEnd text).map (fun out => State.launch p out.1 out.2)

end Sys2Proof.Machine
end

