-- ==== Sys2Proof/Machine/Commands.lean ====
section
/-! DEFINITION. The control port: the three commands over one engine instance (10_state.md R37, 40_cycle.md R140 to R144). -/

namespace Sys2Proof.Machine

/-- An engine between commands: able to take one, or ended by a model fault, after which no command has a
transition (40_cycle.md R143). -/
inductive Engine where
  | ready (s : State)
  | faulted (f : Fault)
  deriving DecidableEq, Repr

/-- The commands of the control port; there is no reset command (10_state.md R37.2, 70_reset_and_hazards.md R331). -/
inductive Command where
  | step
  | run
  | runUntilLine (line : Nat)
  deriving DecidableEq, Repr

/-- How a command stands after a number of steps: ended, or still running (40_cycle.md R144: running out of
fuel is not an end). -/
inductive Progress where
  | ended (e : Engine)
  | running (s : State)
  | refused (r : Refusal)
  deriving DecidableEq, Repr

/-- `Run` and `RunUntilLine`: step while the pc is within program bounds, until `stop` holds after a step, for
at most `fuel` steps (40_cycle.md R141, R142; log 20). -/
def runWhile (stop : State → Bool) : Nat → State → Progress
  | 0, s => if s.halted then .ended (.ready s) else .running s
  | fuel + 1, s =>
    if s.halted then .ended (.ready s)
    else match step s with
      | .next t => if stop t then .ended (.ready t) else runWhile stop fuel t
      | .fault f => .ended (.faulted f)
      | .refused r => .refused r

/-- The `Step` command (40_cycle.md R140). -/
def stepCommand (s : State) : Progress :=
  match step s with
  | .next t => .ended (.ready t)
  | .fault f => .ended (.faulted f)
  | .refused r => .refused r

/-- The `Run` command (40_cycle.md R141). -/
def run (fuel : Nat) (s : State) : Progress := runWhile (fun _ => false) fuel s

/-- The `RunUntilLine(t)` command: the test follows each top-level step and reads `curLine` (40_cycle.md R142). -/
def runUntilLine (line : Nat) (fuel : Nat) (s : State) : Progress :=
  runWhile (fun t => decide (t.curLine = line)) fuel s

/-- A command on an engine, for at most `fuel` steps (10_state.md R37.2, 40_cycle.md R143). -/
def Engine.command (fuel : Nat) (c : Command) : Engine → Progress
  | .faulted f => .ended (.faulted f)
  | .ready s => match c with
    | .step => stepCommand s
    | .run => run fuel s
    | .runUntilLine line => runUntilLine line fuel s

/-- The final state of a run: halted, with no model fault (40_cycle.md R144). -/
def Engine.final : Engine → Bool
  | .ready s => s.halted
  | .faulted _ => false

/-- The state the observation port reads (10_state.md R37.3): after a fault, the state it keeps (40_cycle.md R143). -/
def Engine.state : Engine → State
  | .ready s => s
  | .faulted (.delaySlotPastEnd s) => s
  | .faulted (.misalignedFetch s) => s

end Sys2Proof.Machine
end

