-- ==== Sys2Proof/Safety.lean ====
section
/-! DEFINITION. The terms the claims use: the invariant of a state between commands, what an instruction reads and writes, and the frames. -/

namespace Sys2Proof.Machine

/-- What holds of every state between commands: register 0 is zero (10_state.md R22), the delay-slot flag is
clear (R29), memory is in canonical form (R32), and the program store is one the front end can make (R26). -/
structure State.Inv (s : State) : Prop where
  zero : s.readReg zeroReg = 0#32
  normal : s.inDelaySlot = false
  mem : s.mem.wf
  prog : wellFormedProgram s.prog

/-- The states the steps from `s` reach. -/
inductive Reaches : State → State → Prop where
  | refl (s : State) : Reaches s s
  | step {s t u : State} (h : Reaches s t) (h' : Machine.step t = .next u) : Reaches s u

/-- The fields no instruction ever changes: the program store (10_state.md R26) and the launch parameter
`LINK_TIMING` (45_control_transfer.md R233). -/
structure SameInstance (s t : State) : Prop where
  prog : t.prog = s.prog
  linkTiming : t.linkTiming = s.linkTiming

/-- The frame of an instruction that is no transfer: of the fields beside the registers, memory and the
diagnostics, none changes. The pc was advanced before dispatch (40_cycle.md R130). -/
structure SameControl (s t : State) : Prop extends SameInstance s t where
  pc : t.pc = s.pc
  inDelaySlot : t.inDelaySlot = s.inDelaySlot
  curIndex : t.curIndex = s.curIndex
  curLine : t.curLine = s.curLine

/-- Every byte of memory reads as before. -/
def SameMemory (s t : State) : Prop := ∀ a, t.mem.read a = s.mem.read a

/-- Every register but `rd` is unchanged, and `rd` holds `v`. For `rd = 0` the value stands until the step's
last action forces it back (10_state.md R22). -/
structure RegisterBecomes (s t : State) (rd : RegIdx) (v : Word) : Prop where
  value : t.readReg rd = v
  others : ∀ r, r ≠ rd → t.readReg r = s.readReg r

/-- The diagnostics grow by the given kinds, on the line of the instruction being executed (60_exceptions.md R301). -/
def Reports (s t : State) (kinds : List DiagKind) : Prop :=
  t.diags = s.diags ++ kinds.map (Diagnostic.mk s.curLine)

/-- The whole effect of an instruction that writes one register and reports `kinds`: nothing else changes. -/
structure WritesOnly (s t : State) (rd : RegIdx) (v : Word) (kinds : List DiagKind) : Prop
    extends RegisterBecomes s t rd v, SameControl s t where
  mem : SameMemory s t
  diags : Reports s t kinds

/-- Every register is unchanged. -/
def SameRegisters (s t : State) : Prop := ∀ r, t.readReg r = s.readReg r

/-- The registers an instruction names as sources (30_encoding.md R80). -/
def reads : Instr → List RegIdx
  | .nop | .j _ | .jal _ | .lui _ _ _ => []
  | .sll _ rt _ | .srl _ rt _ | .sra _ rt _ => [rt]
  | .sllv _ rt rs | .srlv _ rt rs | .srav _ rt rs => [rt, rs]
  | .movz _ rs rt | .movn _ rs rt => [rs, rt]
  | .addu _ rs rt | .subu _ rs rt | .and _ rs rt | .or _ rs rt | .xor _ rs rt | .nor _ rs rt
  | .slt _ rs rt | .sltu _ rs rt => [rs, rt]
  | .jr rs | .jalr rs | .bltz rs _ | .bgez rs _ | .blez rs _ | .bgtz rs _ => [rs]
  | .beq rs rt _ | .bne rs rt _ => [rs, rt]
  | .addiu _ rs _ _ | .slti _ rs _ _ | .sltiu _ rs _ _ | .andi _ rs _ _ | .ori _ rs _ _
  | .xori _ rs _ _ => [rs]
  | .lb _ base _ | .lw _ base _ | .lbu _ base _ => [base]
  | .sb rt base _ | .sw rt base _ => [rt, base]

/-- The registers an instruction names as destinations; `jal` and `jalr` write register 31
(45_control_transfer.md R242). -/
def writes : Instr → List RegIdx
  | .nop | .j _ | .jr _ | .bltz _ _ | .bgez _ _ | .blez _ _ | .bgtz _ _ | .beq _ _ _ | .bne _ _ _
  | .sb _ _ _ | .sw _ _ _ => []
  | .jal _ | .jalr _ => [linkReg]
  | .sll rd _ _ | .srl rd _ _ | .sra rd _ _ | .sllv rd _ _ | .srlv rd _ _ | .srav rd _ _
  | .movz rd _ _ | .movn rd _ _ | .addu rd _ _ | .subu rd _ _ | .and rd _ _ | .or rd _ _
  | .xor rd _ _ | .nor rd _ _ | .slt rd _ _ | .sltu rd _ _ => [rd]
  | .addiu rt _ _ _ | .slti rt _ _ _ | .sltiu rt _ _ _ | .andi rt _ _ _ | .ori rt _ _ _
  | .xori rt _ _ _ | .lui rt _ _ | .lb rt _ _ | .lw rt _ _ | .lbu rt _ _ => [rt]

/-- The instruction neither reads nor writes register 31 when it stands in a delay slot, where a transfer
reads and writes nothing (45_control_transfer.md R233, R234). -/
def avoidsLinkInSlot (r : Record) : Bool :=
  match r with
  | .op i => i.isTransfer || !((reads i ++ writes i).contains linkReg)
  | .unsup | .invalid => true

/-- The stores (46_memory_ops.md R272, R275). -/
def isStore : Instr → Bool
  | .sb _ _ _ | .sw _ _ _ => true
  | .nop | .sll _ _ _ | .srl _ _ _ | .sra _ _ _ | .sllv _ _ _ | .srlv _ _ _ | .srav _ _ _
  | .jr _ | .jalr _ | .movz _ _ _ | .movn _ _ _ | .addu _ _ _ | .subu _ _ _ | .and _ _ _
  | .or _ _ _ | .xor _ _ _ | .nor _ _ _ | .slt _ _ _ | .sltu _ _ _ | .bltz _ _ | .bgez _ _
  | .j _ | .jal _ | .beq _ _ _ | .bne _ _ _ | .blez _ _ | .bgtz _ _ | .addiu _ _ _ _
  | .slti _ _ _ _ | .sltiu _ _ _ _ | .andi _ _ _ _ | .ori _ _ _ _ | .xori _ _ _ _ | .lui _ _ _
  | .lb _ _ _ | .lw _ _ _ | .lbu _ _ _ => false

/-- A transfer's delay slot can be fetched: not nested, and the pc aligned and within program bounds
(40_cycle.md R131, R132; 45_control_transfer.md R231). At handler entry the pc is the delay slot's address. -/
structure SlotReady (s : State) : Prop where
  normal : s.inDelaySlot = false
  aligned : s.pc.toNat % 4 = 0
  inside : s.pc.toNat < 4 * s.prog.length

/-- The linking transfers (45_control_transfer.md R232). -/
def isLinking : Record → Bool
  | .op (.jal _) | .op (.jalr _) => true
  | .op _ | .unsup | .invalid => false

/-- The kinds the engine itself raises; the others are the front end's, or never raised (60_exceptions.md R300). -/
def engineKinds : List DiagKind :=
  [.invalidInstruction, .unsupportedOperation, .immediateOverflow, .invalidMemoryLocation, .nestedTransfer]

/-- The kinds the loader raises (60_exceptions.md R300). -/
def loaderKinds : List DiagKind := [.labelDigits, .duplicateLabel]

/-- A transfer without a link completes: the delay-slot instruction is executed once, from the state at
handler entry with the flag set, and ends at some state `u`; the transfer ends there but for the committed pc
and the cleared flag (45_control_transfer.md R232, R235, R236). -/
def CompletesUnlinked (i : Instr) (s : State) (taken : Bool) (target : Word) : Prop :=
  ∃ u, slotStep { s with inDelaySlot := true } = .next u ∧ u.pc = s.pc + 4#32 ∧
    exec i s = .next { u with pc := if taken then target else s.pc + 4#32, inDelaySlot := false }

/-- A linking transfer completes: as `CompletesUnlinked`, always taken, with register 31 written `pcE + 4`
before the delay-slot instruction or after it, as `LINK_TIMING` says (45_control_transfer.md R232, R233, R242). -/
def CompletesLinked (i : Instr) (s : State) (target : Word) : Prop :=
  (s.linkTiming = .beforeDelaySlot →
    ∃ u, slotStep { s.writeReg linkReg (s.pc + 4#32) with inDelaySlot := true } = .next u ∧ u.pc = s.pc + 4#32 ∧
      exec i s = .next { u with pc := target, inDelaySlot := false }) ∧
  (s.linkTiming = .afterDelaySlot →
    ∃ u, slotStep { s with inDelaySlot := true } = .next u ∧ u.pc = s.pc + 4#32 ∧
      exec i s = .next { u.writeReg linkReg (s.pc + 4#32) with pc := target, inDelaySlot := false })

end Sys2Proof.Machine
end

