-- ==== Sys2Proof/Certificates/Slice0/Obligations.lean ====
section
/-! DEFINITION. The statements about the model, for the provers. A statement about a next state says what is left unchanged, too. -/

open Sys2Proof Sys2Proof.Machine

/-! ## Reference words (30_encoding.md section 6) -/

/-- Words written out from the encodings of R112 decode to the instructions they stand for, one of each family
(95_test_vectors.md 2.9). -/
def Obligations.WordsWrittenOutDecode : Prop :=
  decodeWord 0b00000000000000000000000000000000#32 = .record (.op .nop) ∧
  decodeWord 0b00100101001010001111111111111111#32 = .record (.op (.addiu 8#5 9#5 0xFFFF#16 false)) ∧
  decodeWord 0b00111100000010000001001000110100#32 = .record (.op (.lui 8#5 0x1234#16 false)) ∧
  decodeWord 0b00000001001010100100000000101011#32 = .record (.op (.sltu 8#5 9#5 10#5)) ∧
  decodeWord 0b00000001001010100100000000001011#32 = .record (.op (.movn 8#5 9#5 10#5)) ∧
  decodeWord 0b00000000000010010100000100000000#32 = .record (.op (.sll 8#5 9#5 4#5)) ∧
  decodeWord 0b00000001010010010100000000000100#32 = .record (.op (.sllv 8#5 9#5 10#5)) ∧
  decodeWord 0b00001100000000000000000000000010#32 = .record (.op (.jal 2#26)) ∧
  decodeWord 0b00000001001000001111100000001001#32 = .record (.op (.jalr 9#5)) ∧
  decodeWord 0b00000101000000010000000000000000#32 = .record (.op (.bgez 8#5 0#16)) ∧
  decodeWord 0b10101101001010000000000000000100#32 = .record (.op (.sw 8#5 9#5 4#16)) ∧
  decodeWord 0b00000000000000000000000000100000#32 = .record .unsup ∧
  decodeWord 0b00000001001000000100000000001001#32 = .refused .jalrLinksElsewhere

/-- Every well-formed instruction, with every operand at every value, decodes from its own word: no bit of an
encoding is dropped (30_encoding.md R112, R113). -/
def Obligations.DecodeOfEncodeIsIdentity : Prop :=
  ∀ i : Instr, i.wellFormed = true → decodeWord (encode i) = .record (.op i)

/-- Each word has one meaning: a word that decodes to an instruction is that instruction's own word, and that
instruction is well formed (30_encoding.md R112, R113). -/
def Obligations.EncodeOfDecodeIsIdentity : Prop :=
  ∀ (w : Word) (i : Instr), decodeWord w = .record (.op i) → encode i = w ∧ i.wellFormed = true

/-- A word decodes to the record of the first row it matches, in table order; a word that matches no row is
`UNSUP`, but for a `jalr` word with another rd than 31, which is refused; a decoded immediate never overflows
(30_encoding.md R113, R114). Which words are `jalr` words is the model's reading (log 7). -/
def Obligations.WordDecodesByFirstMatchingRow : Prop :=
  (∀ (w : Word) (earlier later : List OpcodeRow) (r : OpcodeRow), opcodeTable = earlier ++ r :: later →
    (∀ p ∈ earlier, w &&& p.mask ≠ p.pattern) → w &&& r.mask = r.pattern →
      decodeWord w = .record (.op (r.build w))) ∧
  (∀ w : Word, (∀ p ∈ opcodeTable, w &&& p.mask ≠ p.pattern) →
    decodeWord w = if isJalrWord w then .refused .jalrLinksElsewhere else .record .unsup) ∧
  (∀ (w : Word) (i : Instr), decodeWord w = .record (.op i) → i.ovf = false)

/-- A `jalr` word is refused exactly when its rd is not 31 (30_encoding.md R114; log 7). -/
def Obligations.JalrWordLinksOnlyRegister31 : Prop :=
  ∀ rs rd : RegIdx, decodeWord (wordR rs 0#5 rd 0#5 0x09#6) =
    if rd = 31#5 then .record (.op (.jalr rs)) else .refused .jalrLinksElsewhere

/-! ## Reset (10_state.md R35, 70_reset_and_hazards.md R330 to R332) -/

/-- A constructed engine has the reset values the spec gives, whatever the launch parameters: pc 0, the flag
clear, register 0 zero, registers 1 to 31 as INIT_REGS, memory as INIT_MEM (in canonical form), the front end's
program and diagnostics, and LINK_TIMING (R35, R330). -/
def Obligations.ConstructionGivesResetValues : Prop :=
  ∀ (p : LaunchParams) (text : Text) (s : State), State.construct p text = .ok s →
    s.pc = 0#32 ∧ s.inDelaySlot = false ∧ s.readReg 0#5 = 0#32 ∧
    (∀ i : Fin 31, s.readReg (BitVec.ofNat 5 (i.val + 1)) = p.initRegs[i.val]) ∧
    (Memory.wf p.initMem → s.mem = p.initMem) ∧
    s.linkTiming = p.linkTiming ∧
    ∃ out, frontEnd text = .ok out ∧ s.prog = out.1 ∧ s.diags = out.2

/-- An empty program is halted at reset: every command leaves it unchanged (R332). -/
def Obligations.EmptyProgramStaysUnchanged : Prop :=
  ∀ (p : LaunchParams) (text : Text) (s : State), State.construct p text = .ok s → s.prog = [] →
    s.halted = true ∧ ∀ (fuel : Nat) (c : Command), Engine.command fuel c (.ready s) = .ended (.ready s)

/-- The state after reset meets the invariant. -/
def Obligations.ResetStateMeetsInvariant : Prop := State.reset.Inv

/-- Every constructed engine meets the invariant: the front end's program has at most N_MAX entries, and its
source lines are positive and strictly rising (10_state.md R26, 30_encoding.md R95). -/
def Obligations.ConstructedEngineMeetsInvariant : Prop :=
  ∀ (p : LaunchParams) (text : Text) (s : State), State.construct p text = .ok s → s.Inv

/-- Every step keeps the invariant: register 0 zero (R22), the flag clear between steps (R29), memory canonical
(R32), and the program store well formed (R26). -/
def Obligations.StepKeepsInvariant : Prop :=
  ∀ s t : State, s.Inv → step s = .next t → t.Inv

/-- The forcing of register 0 to zero, which changes no other register, is the last action of every step that dispatches,
top-level or nested; a write to register 0 takes place and stands until then; and so register 0 reads 0 after every
step of every program (10_state.md R22). -/
def Obligations.RegisterZeroIsForcedAfterEveryDispatch : Prop :=
  (∀ (s : State) (e : Entry), s.pc.toNat % 4 = 0 → s.prog[s.pc.toNat / 4]? = some e →
    step s = onNext State.forceZero (execRecord e.record (s.fetched e)) ∧
    slotStep s = onNext State.forceZero (slotExecRecord e.record (s.fetched e))) ∧
  (∀ (s : State) (r : RegIdx), s.forceZero.readReg r = if r = 0#5 then 0#32 else s.readReg r) ∧
  (∀ (s : State) (rd : RegIdx) (v : Word), (s.writeReg rd v).readReg rd = v) ∧
  ∀ (p : LaunchParams) (text : Text) (s t : State), State.construct p text = .ok s → Reaches s t →
    t.readReg 0#5 = 0#32

/-- Every read of register 0 by an instruction returns 0: register 0 is zero in every state that a constructed engine
reaches, after the fetch that precedes dispatch, and after a transfer's fetch of its delay-slot instruction
(10_state.md R23). -/
def Obligations.RegisterZeroReadsZero : Prop :=
  ∀ (p : LaunchParams) (text : Text) (s t : State), State.construct p text = .ok s → Reaches s t →
    t.readReg 0#5 = 0#32 ∧ ∀ e : Entry, (t.fetched e).readReg 0#5 = 0#32 ∧
      ∀ (x : Transfer) (d : Entry), (((t.fetched e).enterSlot x).fetched d).readReg 0#5 = 0#32

/-! ## The step (40_cycle.md) -/

/-- A step at an aligned pc with an entry there sets the current-instruction record, advances the pc by 4 before
dispatch, runs the record's one handler, and forces register 0 (40_cycle.md R130, R133, 10_state.md R30). -/
def Obligations.StepRunsTheFetchedRecord : Prop :=
  ∀ (s : State) (e : Entry), s.pc.toNat % 4 = 0 → s.prog[s.pc.toNat / 4]? = some e →
    (∀ i : Instr, e.record = .op i →
      step s = onNext State.forceZero
        (exec i { s with curIndex := s.pc.toNat / 4, curLine := e.line, pc := s.pc + 4#32 })) ∧
    (e.record = .unsup →
      step s = .next ({ s with
        curIndex := s.pc.toNat / 4, curLine := e.line, pc := s.pc + 4#32
        diags := s.diags ++ [⟨e.line, .unsupportedOperation⟩] } : State).forceZero) ∧
    (e.record = .invalid →
      step s = .next ({ s with
        curIndex := s.pc.toNat / 4, curLine := e.line, pc := s.pc + 4#32
        diags := s.diags ++ [⟨e.line, .invalidInstruction⟩] } : State).forceZero)

/-- A word stored where the engine fetches next is the instruction the next step runs; a transfer's delay slot can
then be fetched. The store stands for the load of a program, the model's choice (log 5, 6). -/
def Obligations.StepRunsThePlacedWord : Prop :=
  ∀ (s : State) (w : Word) (i : Instr), decodeWord w = .record (.op i) → s.pc.toNat % 4 = 0 →
    ∃ e : Entry, e.record = .op i ∧
      step (s.withFetchWord 32 w.toNat) =
        onNext State.forceZero (exec i ((s.withFetchWord 32 w.toNat).fetched e)) ∧
      (i.isTransfer = true → s.inDelaySlot = false → SlotReady ((s.withFetchWord 32 w.toNat).fetched e))

/-- The engine is halted exactly when its pc is not within program bounds; a step, and the Step command, then change
nothing and append nothing. Between steps the flag is clear, so a halted engine is never in a delay slot. A run without
a model fault ends only halted (40_cycle.md R139). -/
def Obligations.HaltedEngineHasNoTransition : Prop :=
  (∀ s : State, (s.halted = true ↔ 4 * s.prog.length ≤ s.pc.toNat) ∧
    (s.halted = true → step s = .next s ∧ ∀ fuel, Engine.command fuel .step (.ready s) = .ended (.ready s))) ∧
  (∀ (p : LaunchParams) (text : Text) (s t : State), State.construct p text = .ok s → Reaches s t →
    t.inDelaySlot = false) ∧
  ∀ (fuel : Nat) (s t : State), run fuel s = .ended (.ready t) → t.halted = true

/-- Between commands, a step ends in the model fault MisalignedFetch exactly when the pc is in bounds and no multiple
of 4, and the state is kept as it was; in a delay slot the fault cannot arise (40_cycle.md R132, R143,
45_control_transfer.md R236). -/
def Obligations.MisalignedFetchFaultsExactlyInBounds : Prop :=
  ∀ s u : State, s.inDelaySlot = false →
    (step s = .fault (.misalignedFetch u) ↔
      (s.pc.toNat < 4 * s.prog.length ∧ s.pc.toNat % 4 ≠ 0 ∧ u = s))

/-- A transfer as the last entry ends its step in the model fault DelaySlotPastEnd. The state keeps what was done:
the pc advanced to the end, the flag set, the record of the transfer, and the link only if it is written before the
delay slot; no memory byte and no diagnostic (40_cycle.md R131, R143, 45_control_transfer.md R236). -/
def Obligations.LastEntryTransferFaults : Prop :=
  ∀ (s : State) (e : Entry), s.inDelaySlot = false → wellFormedProgram s.prog →
    s.pc.toNat + 4 = 4 * s.prog.length → s.prog[s.pc.toNat / 4]? = some e → e.record.isTransfer = true →
    ∃ u, step s = .fault (.delaySlotPastEnd u) ∧
      u.pc = s.pc + 4#32 ∧ u.inDelaySlot = true ∧ u.curIndex = s.pc.toNat / 4 ∧ u.curLine = e.line ∧
      u.mem = s.mem ∧ u.prog = s.prog ∧ u.diags = s.diags ∧ u.linkTiming = s.linkTiming ∧
      ∀ r, u.readReg r =
        if isLinking e.record = true ∧ s.linkTiming = .beforeDelaySlot ∧ r = 31#5 then s.pc + 8#32 else s.readReg r

/-- Between commands, a step ends in the model fault DelaySlotPastEnd only at a transfer that is the last entry
(40_cycle.md R131, 70_reset_and_hazards.md R336). -/
def Obligations.DelaySlotPastEndOnlyAtLastEntryTransfer : Prop :=
  ∀ s u : State, s.inDelaySlot = false → wellFormedProgram s.prog → step s = .fault (.delaySlotPastEnd u) →
    s.pc.toNat + 4 = 4 * s.prog.length ∧
      ∃ e, s.prog[s.pc.toNat / 4]? = some e ∧ e.record.isTransfer = true

/-- No step is refused: every record selects a handler (40_cycle.md R133). -/
def Obligations.StepIsNeverRefused : Prop :=
  ∀ (s : State) (r : Refusal), step s ≠ .refused r

/-- The same procedure runs for a top-level step and for the nested step a transfer makes: in a delay slot the two
agree wherever an entry is fetched, and differ only past the end, where the nested step faults (40_cycle.md R130,
R131). -/
def Obligations.NestedStepIsTheSameProcedure : Prop :=
  ∀ s : State, s.inDelaySlot = true →
    (s.halted = false → slotStep s = step s) ∧ (s.halted = true → slotStep s = .fault (.delaySlotPastEnd s))

/-- A step whose entry is no transfer moves the pc by 4 and no further, and names that entry in the current-instruction
record; only a transfer commits another pc (45_control_transfer.md R235, 40_cycle.md R130). -/
def Obligations.OnlyTransfersLeaveTheSequentialPath : Prop :=
  ∀ (s t : State) (e : Entry), s.pc.toNat % 4 = 0 → s.prog[s.pc.toNat / 4]? = some e →
    e.record.isTransfer = false → step s = .next t →
      t.pc = s.pc + 4#32 ∧ t.curIndex = s.pc.toNat / 4 ∧ t.curLine = e.line ∧ t.inDelaySlot = s.inDelaySlot

/-- After a top-level step that executed a transfer, the current-instruction record names the delay-slot instruction,
and the flag is clear (10_state.md R30, R29). -/
def Obligations.TransferStepRecordsTheDelaySlot : Prop :=
  ∀ (s t : State) (e : Entry), s.inDelaySlot = false → wellFormedProgram s.prog → s.pc.toNat % 4 = 0 →
    s.prog[s.pc.toNat / 4]? = some e → e.record.isTransfer = true → step s = .next t →
      ∃ d : Entry, s.prog[s.pc.toNat / 4 + 1]? = some d ∧
        t.curIndex = s.pc.toNat / 4 + 1 ∧ t.curLine = d.line ∧ t.inDelaySlot = false

/-! ## Instruction results, with their frames

Each says that `exec` answers a next state, for every state and every operand, which state it is, and that nothing
else changes. A write to register 0 stands until the step's last action forces it back
(`RegisterZeroIsForcedAfterEveryDispatch`). -/

/-- `nop` changes nothing (40_cycle.md R134). -/
def Obligations.NopChangesNothing : Prop :=
  ∀ s : State, exec .nop s = .next s ∧
    ∀ e : Entry, s.pc.toNat % 4 = 0 → s.prog[s.pc.toNat / 4]? = some e → e.record = .op .nop →
      s.readReg 0#5 = 0#32 →
      step s = .next { s with curIndex := s.pc.toNat / 4, curLine := e.line, pc := s.pc + 4#32 }

/-- The arithmetic immediates: the literal is sign-extended, sums wrap modulo 2^32, comparisons give exactly 0 or 1,
and an overflowing literal is reported (41_imm_alu.md R160, R161, R165, R166). -/
def Obligations.SignExtendedImmediateResults : Prop :=
  ∀ (s : State) (rt rs : RegIdx) (imm : Field16) (ovf : Bool),
    let kinds : List DiagKind := if ovf then [.immediateOverflow] else []
    (∃ t, exec (.addiu rt rs imm ovf) s = .next t ∧
      WritesOnly s t rt (BitVec.ofInt 32 ((s.readReg rs).toInt + imm.toInt)) kinds) ∧
    (∃ t, exec (.slti rt rs imm ovf) s = .next t ∧
      WritesOnly s t rt (if (s.readReg rs).toInt < imm.toInt then 1#32 else 0#32) kinds) ∧
    (∃ t, exec (.sltiu rt rs imm ovf) s = .next t ∧
      WritesOnly s t rt (if ((s.readReg rs).toNat : Int) < imm.toInt % 2 ^ 32 then 1#32 else 0#32) kinds)

/-- The logical immediates and `lui`: the literal is zero-extended, or placed in the upper half; bits 31:16 of an
`andi` result are 0, those of `ori` and `xori` are the source's (41_imm_alu.md R160, R162 to R164, R167). -/
def Obligations.LogicalImmediateResults : Prop :=
  ∀ (s : State) (rt rs : RegIdx) (imm : Field16) (ovf : Bool),
    let kinds : List DiagKind := if ovf then [.immediateOverflow] else []
    (∃ t v, exec (.andi rt rs imm ovf) s = .next t ∧ WritesOnly s t rt v kinds ∧
      ∀ k, k < 32 → v.getLsbD k = ((s.readReg rs).getLsbD k && decide (k < 16) && imm.getLsbD k)) ∧
    (∃ t v, exec (.ori rt rs imm ovf) s = .next t ∧ WritesOnly s t rt v kinds ∧
      ∀ k, k < 32 → v.getLsbD k = ((s.readReg rs).getLsbD k || (decide (k < 16) && imm.getLsbD k))) ∧
    (∃ t v, exec (.xori rt rs imm ovf) s = .next t ∧ WritesOnly s t rt v kinds ∧
      ∀ k, k < 32 → v.getLsbD k = ((s.readReg rs).getLsbD k ^^ (decide (k < 16) && imm.getLsbD k))) ∧
    (∃ t, exec (.lui rt imm ovf) s = .next t ∧
      WritesOnly s t rt (BitVec.ofNat 32 (imm.toNat * 65536)) kinds)

/-- Register addition, subtraction and comparison: modulo 2^32, no trap, signed and unsigned
(42_reg_alu.md R180, R181, R186, R187). -/
def Obligations.RegisterArithmeticResults : Prop :=
  ∀ (s : State) (rd rs rt : RegIdx),
    (∃ t, exec (.addu rd rs rt) s = .next t ∧
      WritesOnly s t rd (BitVec.ofInt 32 ((s.readReg rs).toInt + (s.readReg rt).toInt)) []) ∧
    (∃ t, exec (.subu rd rs rt) s = .next t ∧
      WritesOnly s t rd (BitVec.ofInt 32 ((s.readReg rs).toInt - (s.readReg rt).toInt)) []) ∧
    (∃ t, exec (.slt rd rs rt) s = .next t ∧
      WritesOnly s t rd (if (s.readReg rs).toInt < (s.readReg rt).toInt then 1#32 else 0#32) []) ∧
    (∃ t, exec (.sltu rd rs rt) s = .next t ∧
      WritesOnly s t rd (if (s.readReg rs).toNat < (s.readReg rt).toNat then 1#32 else 0#32) [])

/-- Register logic, bit by bit (42_reg_alu.md R182 to R185). -/
def Obligations.RegisterLogicResults : Prop :=
  ∀ (s : State) (rd rs rt : RegIdx),
    (∃ t v, exec (.and rd rs rt) s = .next t ∧ WritesOnly s t rd v [] ∧
      ∀ k, k < 32 → v.getLsbD k = ((s.readReg rs).getLsbD k && (s.readReg rt).getLsbD k)) ∧
    (∃ t v, exec (.or rd rs rt) s = .next t ∧ WritesOnly s t rd v [] ∧
      ∀ k, k < 32 → v.getLsbD k = ((s.readReg rs).getLsbD k || (s.readReg rt).getLsbD k)) ∧
    (∃ t v, exec (.xor rd rs rt) s = .next t ∧ WritesOnly s t rd v [] ∧
      ∀ k, k < 32 → v.getLsbD k = ((s.readReg rs).getLsbD k ^^ (s.readReg rt).getLsbD k)) ∧
    (∃ t v, exec (.nor rd rs rt) s = .next t ∧ WritesOnly s t rd v [] ∧
      ∀ k, k < 32 → v.getLsbD k = !((s.readReg rs).getLsbD k || (s.readReg rt).getLsbD k))

/-- Conditional moves: the source is copied if the condition register is not zero (`movn`) or zero (`movz`); otherwise
nothing at all changes (43_cond_move.md R200, R201). -/
def Obligations.ConditionalMoveResults : Prop :=
  ∀ (s : State) (rd rs rt : RegIdx),
    (s.readReg rt ≠ 0#32 →
      (∃ t, exec (.movn rd rs rt) s = .next t ∧ WritesOnly s t rd (s.readReg rs) []) ∧
      exec (.movz rd rs rt) s = .next s) ∧
    (s.readReg rt = 0#32 →
      (∃ t, exec (.movz rd rs rt) s = .next t ∧ WritesOnly s t rd (s.readReg rs) []) ∧
      exec (.movn rd rs rt) s = .next s)

/-- Shifts by an immediate amount: a left shift multiplies modulo 2^32, a logical right shift divides the unsigned
value, an arithmetic one the signed value, rounding down (44_shifts.md R210 to R213). -/
def Obligations.ImmediateShiftResults : Prop :=
  ∀ (s : State) (rd rt : RegIdx) (sa : ShAmt),
    (∃ t, exec (.sll rd rt sa) s = .next t ∧
      WritesOnly s t rd (BitVec.ofNat 32 ((s.readReg rt).toNat * 2 ^ sa.toNat)) []) ∧
    (∃ t, exec (.srl rd rt sa) s = .next t ∧
      WritesOnly s t rd (BitVec.ofNat 32 ((s.readReg rt).toNat / 2 ^ sa.toNat)) []) ∧
    (∃ t, exec (.sra rd rt sa) s = .next t ∧
      WritesOnly s t rd (BitVec.ofInt 32 ((s.readReg rt).toInt / 2 ^ sa.toNat)) [])

/-- Shifts by a register amount: the amount is the register's value modulo 32 (44_shifts.md R210, R214 to R216). -/
def Obligations.RegisterShiftResults : Prop :=
  ∀ (s : State) (rd rt rs : RegIdx),
    let amount := (s.readReg rs).toNat % 32
    (∃ t, exec (.sllv rd rt rs) s = .next t ∧
      WritesOnly s t rd (BitVec.ofNat 32 ((s.readReg rt).toNat * 2 ^ amount)) []) ∧
    (∃ t, exec (.srlv rd rt rs) s = .next t ∧
      WritesOnly s t rd (BitVec.ofNat 32 ((s.readReg rt).toNat / 2 ^ amount)) []) ∧
    (∃ t, exec (.srav rd rt rs) s = .next t ∧
      WritesOnly s t rd (BitVec.ofInt 32 ((s.readReg rt).toInt / 2 ^ amount)) [])

/-- Loads: in range, the bytes at the effective address, a word little-endian, a byte sign- or zero-extended; out of
range, 0 and one diagnostic. No alignment is asked for, and no byte of memory changes (46_memory_ops.md R270, R271,
R273, R274, 20_memory.md R52 to R55). -/
def Obligations.LoadResults : Prop :=
  ∀ (s : State) (rt base : RegIdx) (off : Field16),
    let ea := effectiveAddress (s.readReg base) off
    (∃ t v, exec (.lw rt base off) s = .next t ∧
      if 0 ≤ ea ∧ ea + 3 < 2 ^ 24 then
        WritesOnly s t rt v [] ∧ ∀ k, k < 4 → v.extractLsb' (8 * k) 8 = s.mem.read (ea.toNat + k)
      else WritesOnly s t rt 0#32 [.invalidMemoryLocation]) ∧
    (∃ t, exec (.lb rt base off) s = .next t ∧
      if 0 ≤ ea ∧ ea < 2 ^ 24 then WritesOnly s t rt (BitVec.ofInt 32 (s.mem.read ea.toNat).toInt) []
      else WritesOnly s t rt 0#32 [.invalidMemoryLocation]) ∧
    (∃ t, exec (.lbu rt base off) s = .next t ∧
      if 0 ≤ ea ∧ ea < 2 ^ 24 then WritesOnly s t rt (BitVec.ofNat 32 (s.mem.read ea.toNat).toNat) []
      else WritesOnly s t rt 0#32 [.invalidMemoryLocation])

/-- Stores: in range, exactly the bytes from the effective address on hold the stored value's bytes, lowest first, and
every other byte reads as before; out of range, no byte changes and one diagnostic is appended. No register changes
(46_memory_ops.md R270, R272, R275, 20_memory.md R52 to R56). -/
def Obligations.StoreResults : Prop :=
  ∀ (s : State) (rt base : RegIdx) (off : Field16), s.mem.wf →
    let ea := effectiveAddress (s.readReg base) off
    (∃ t, exec (.sw rt base off) s = .next t ∧ SameControl s t ∧ SameRegisters s t ∧
      if 0 ≤ ea ∧ ea + 3 < 2 ^ 24 then
        Reports s t [] ∧
        (∀ k, k < 4 → t.mem.read (ea.toNat + k) = (s.readReg rt).extractLsb' (8 * k) 8) ∧
        ∀ a : Nat, (a < ea.toNat ∨ ea.toNat + 4 ≤ a) → t.mem.read a = s.mem.read a
      else Reports s t [.invalidMemoryLocation] ∧ SameMemory s t) ∧
    (∃ t, exec (.sb rt base off) s = .next t ∧ SameControl s t ∧ SameRegisters s t ∧
      if 0 ≤ ea ∧ ea < 2 ^ 24 then
        Reports s t [] ∧ t.mem.read ea.toNat = (s.readReg rt).extractLsb' 0 8 ∧
        ∀ a : Nat, a ≠ ea.toNat → t.mem.read a = s.mem.read a
      else Reports s t [.invalidMemoryLocation] ∧ SameMemory s t)

/-- Branches on the equality of two registers complete: the delay slot runs once, and the branch goes to the target
counted in instructions from the delay slot, or to the entry after it, by the values read at entry
(45_control_transfer.md R232, R235, R241, R248, R249, R255). -/
def Obligations.EqualityBranchesComplete : Prop :=
  ∀ (s : State) (rs rt : RegIdx) (off : Field16), SlotReady s →
    let target := BitVec.ofInt 32 ((s.pc.toNat : Int) + 4 * off.toInt)
    CompletesUnlinked (.beq rs rt off) s (decide (s.readReg rs = s.readReg rt)) target ∧
    CompletesUnlinked (.bne rs rt off) s (decide (s.readReg rs ≠ s.readReg rt)) target

/-- Branches on the sign of a register complete, as those on equality (45_control_transfer.md R232, R235, R241,
R250 to R253, R255). -/
def Obligations.SignBranchesComplete : Prop :=
  ∀ (s : State) (rs : RegIdx) (off : Field16), SlotReady s →
    let target := BitVec.ofInt 32 ((s.pc.toNat : Int) + 4 * off.toInt)
    CompletesUnlinked (.bltz rs off) s (decide ((s.readReg rs).toInt < 0)) target ∧
    CompletesUnlinked (.blez rs off) s (decide ((s.readReg rs).toInt ≤ 0)) target ∧
    CompletesUnlinked (.bgtz rs off) s (decide (0 < (s.readReg rs).toInt)) target ∧
    CompletesUnlinked (.bgez rs off) s (decide (0 ≤ (s.readReg rs).toInt)) target

/-- `j` and `jr` complete: always taken, to the word index in the pc's 256 MiB region, or to the register's value at
entry, whatever it is (45_control_transfer.md R232, R239, R240, R244, R246, R255). -/
def Obligations.PlainJumpsComplete : Prop :=
  ∀ (s : State) (index : Index26) (rs : RegIdx), SlotReady s →
    CompletesUnlinked (.j index) s true (BitVec.ofNat 32 (s.pc.toNat / 2 ^ 28 * 2 ^ 28 + 4 * index.toNat)) ∧
    CompletesUnlinked (.jr rs) s true (s.readReg rs)

/-- `jal` and `jalr` complete: as `j` and `jr`, with register 31 written the address after the delay slot, before or
after the delay-slot instruction as LINK_TIMING says (45_control_transfer.md R232, R233, R242, R245, R247, R255). -/
def Obligations.LinkingJumpsComplete : Prop :=
  ∀ (s : State) (index : Index26) (rs : RegIdx), SlotReady s →
    CompletesLinked (.jal index) s (BitVec.ofNat 32 (s.pc.toNat / 2 ^ 28 * 2 ^ 28 + 4 * index.toNat)) ∧
    CompletesLinked (.jalr rs) s (s.readReg rs)

/-- A transfer executed in a delay slot appends its diagnostic and does nothing else: no operand, no link, no delay slot
of its own, no pc, no flag. Its step ends with the pc advance already made, and the outer transfer then commits or not
by its own condition (45_control_transfer.md R234). -/
def Obligations.NestedTransferHasNoEffect : Prop :=
  (∀ (s : State) (i : Instr), s.inDelaySlot = true → i.isTransfer = true →
    exec i s = .next { s with diags := s.diags ++ [⟨s.curLine, .nestedTransfer⟩] }) ∧
  (∀ (s : State) (e : Entry), s.inDelaySlot = true → s.pc.toNat % 4 = 0 → s.prog[s.pc.toNat / 4]? = some e →
    e.record.isTransfer = true →
      slotStep s = .next ({ s with
        curIndex := s.pc.toNat / 4, curLine := e.line, pc := s.pc + 4#32
        diags := s.diags ++ [⟨e.line, .nestedTransfer⟩] } : State).forceZero) ∧
  ∀ (s : State) (e : Entry) (x : Transfer), SlotReady s → s.prog[s.pc.toNat / 4]? = some e →
    e.record.isTransfer = true →
      ∃ t, transfer x s = .next t ∧ t.pc = (if x.taken then x.target else s.pc + 4#32) ∧ t.inDelaySlot = false ∧
        t.diags = s.diags ++ [⟨e.line, .nestedTransfer⟩]

/-- Every register a transfer reads is read at handler entry, so nothing its delay-slot instruction writes changes where or
whether it goes: after the whole top-level step the pc is the target or the entry after the slot, by the registers as
they were before the step (45_control_transfer.md R255). -/
def Obligations.DelaySlotCannotRedirectItsTransfer : Prop :=
  ∀ (s t : State) (e : Entry), s.inDelaySlot = false → s.pc.toNat % 4 = 0 →
    s.prog[s.pc.toNat / 4]? = some e → step s = .next t →
    (∀ rs, (e.record = .op (.jr rs) ∨ e.record = .op (.jalr rs)) → t.pc = s.readReg rs) ∧
    (∀ rs rt off, e.record = .op (.beq rs rt off) →
      t.pc = if s.readReg rs = s.readReg rt then branchTarget (s.pc + 4#32) off else s.pc + 8#32) ∧
    (∀ rs rt off, e.record = .op (.bne rs rt off) →
      t.pc = if s.readReg rs ≠ s.readReg rt then branchTarget (s.pc + 4#32) off else s.pc + 8#32) ∧
    (∀ rs off, e.record = .op (.bltz rs off) →
      t.pc = if (s.readReg rs).toInt < 0 then branchTarget (s.pc + 4#32) off else s.pc + 8#32) ∧
    (∀ rs off, e.record = .op (.blez rs off) →
      t.pc = if (s.readReg rs).toInt ≤ 0 then branchTarget (s.pc + 4#32) off else s.pc + 8#32) ∧
    (∀ rs off, e.record = .op (.bgtz rs off) →
      t.pc = if 0 < (s.readReg rs).toInt then branchTarget (s.pc + 4#32) off else s.pc + 8#32) ∧
    (∀ rs off, e.record = .op (.bgez rs off) →
      t.pc = if 0 ≤ (s.readReg rs).toInt then branchTarget (s.pc + 4#32) off else s.pc + 8#32)

/-- The two values of LINK_TIMING differ only when the delay-slot instruction of a `jal` or `jalr` reads or writes
register 31: where it does not, a step that completes under one completes under the other, to the same state
(45_control_transfer.md R233). -/
def Obligations.LinkTimingMattersOnlyWhenTheSlotTouchesRegister31 : Prop :=
  ∀ (s t : State) (timing : LinkTiming),
    (∀ e d : Entry, s.prog[s.pc.toNat / 4]? = some e → isLinking e.record = true →
      s.prog[s.pc.toNat / 4 + 1]? = some d → avoidsLinkInSlot d.record = true) →
    s.pc.toNat + 4 < 2 ^ 32 → step s = .next t →
      step { s with linkTiming := timing } = .next { t with linkTiming := timing }

/-! ## Memory (20_memory.md) -/

/-- The effective address as a 32-bit wrapped sum gives the same verdict of the range check and the same address in
range as the integer sum, for both widths (20_memory.md R51). -/
def Obligations.WrappedAddressGivesTheSameVerdict : Prop :=
  ∀ (base : Word) (off : Field16) (n : Nat), (n = 1 ∨ n = 4) →
    let wrapped := (base + off.signExtend 32).toNat
    (inRange (effectiveAddress base off) n = true ↔ wrapped + n ≤ 2 ^ 24) ∧
    (inRange (effectiveAddress base off) n = true → (effectiveAddress base off).toNat = wrapped)

/-- Storing a word and loading it at the same address gives the word back, at any address in range, aligned or not
(20_memory.md R58). -/
def Obligations.StoreThenLoadReturnsTheWord : Prop :=
  ∀ (s : State) (rt rd base : RegIdx) (off : Field16), s.mem.wf →
    inRange (effectiveAddress (s.readReg base) off) 4 = true →
    ∃ t u, exec (.sw rt base off) s = .next t ∧ exec (.lw rd base off) t = .next u ∧ u.readReg rd = s.readReg rt

/-- Mixed widths: each byte of a stored word reads as its eight bits of the word, and a stored byte replaces its eight
bits of the word around it and no others (20_memory.md R57). -/
def Obligations.MixedWidthAccessesAgree : Prop :=
  ∀ (m : Memory) (a k : Nat) (v : Word), m.wf → a + 4 ≤ memSize → k < 4 →
    (m.write4 a v).read1 (a + k) = v.extractLsb' (8 * k) 8 ∧
    ((m.write1 (a + k) v).read4 a).extractLsb' (8 * k) 8 = v.extractLsb' 0 8 ∧
    ∀ j, j < 4 → j ≠ k → ((m.write1 (a + k) v).read4 a).extractLsb' (8 * j) 8 = (m.read4 a).extractLsb' (8 * j) 8

/-- Only the stores reach memory to write it: a step that executes no store leaves memory as it was. A step executes the
entry the pc selects, and the entry after it only where that entry is a transfer outside a delay slot, which runs its own
(10_state.md R32, R33, 45_control_transfer.md R232, R234). -/
def Obligations.OnlyStoresChangeMemory : Prop :=
  ∀ s t : State,
    (∀ e, s.prog[s.pc.toNat / 4]? = some e →
      (∀ i, e.record = .op i → isStore i = false) ∧
      (e.record.isTransfer = true → s.inDelaySlot = false →
        ∀ d i, s.prog[(s.pc + 4#32).toNat / 4]? = some d → d.record = .op i → isStore i = false)) →
    step s = .next t → t.mem = s.mem

/-- An instruction that is no transfer completes in every state, and leaves the program store, the launch parameter, the pc,
the flag and the current-instruction record alone, whatever else it does (40_cycle.md R138, 45_control_transfer.md R235). -/
def Obligations.StraightInstructionsCompleteAndLeaveControlAlone : Prop :=
  ∀ (i : Instr) (s : State), i.isTransfer = false → ∃ t, exec i s = .next t ∧ SameControl s t ∧
    (∀ r, r ∉ writes i → t.readReg r = s.readReg r) ∧ (isStore i = false → SameMemory s t)

/-! ## Diagnostics (60_exceptions.md) -/

/-- A top-level step appends at most one diagnostic, of a kind the engine raises, on the line of the instruction executed
last (60_exceptions.md R300, R301, R305). -/
def Obligations.StepReportsAtMostOnce : Prop :=
  ∀ s t : State, s.inDelaySlot = false → step s = .next t →
    t.diags = s.diags ∨ ∃ k ∈ engineKinds, t.diags = s.diags ++ [⟨t.curLine, k⟩]

/-- Along every run the diagnostics are only appended to, and the program store and the launch parameter never change
(10_state.md R26, R34, 20_memory.md R67). -/
def Obligations.RunsAppendDiagnosticsAndKeepTheProgram : Prop :=
  ∀ s t : State, Reaches s t →
    (∃ more, t.diags = s.diags ++ more) ∧ t.prog = s.prog ∧ t.linkTiming = s.linkTiming

/-! ## Program bounds and targets (10_state.md R28, 45_control_transfer.md R240 to R243) -/

/-- The pc is within program bounds, the engine not halted, exactly when it is below 4*N; an in-bounds pc is then below
2^28, so its bits 31 to 28 are zero (10_state.md R28). -/
def Obligations.InBoundsPcHasZeroHighBits : Prop :=
  ∀ s : State, wellFormedProgram s.prog → (s.halted = false ↔ s.pc.toNat < 4 * s.prog.length) ∧
    (s.halted = false → s.pc.toNat < 2 ^ 28 ∧ s.pc.extractLsb' 28 4 = 0#4)

/-- A label-linked branch at index `k` goes to the labelled entry, and a label-linked jump too, in a program of admitted
length (45_control_transfer.md R240, R241, 30_encoding.md R98, R99). -/
def Obligations.LinkedTargetsReachTheirLabels : Prop :=
  ∀ (labels : List (Text × Nat)) (name : Text) (k l : Nat), labelIndex labels name = some l →
    k < nMax → l ≤ nMax →
    (∀ off kinds, linkBranch labels k name = .ok (off, kinds) →
      kinds = [] ∧ branchTarget (BitVec.ofNat 32 (4 * k + 4)) off = BitVec.ofNat 32 (4 * l)) ∧
    (linkJump labels name).2 = [] ∧
    jumpTarget (BitVec.ofNat 32 (4 * k + 4)) (linkJump labels name).1 = BitVec.ofNat 32 (4 * l)

/-- An undefined label gives the diagnostic and the sentinel; the jump sentinel's target is 0x0FFFFFFC and halts every
program, and the branch sentinel's is index k + 32768, which halts it when N <= k + 32768 (30_encoding.md R98, R99,
45_control_transfer.md R243). -/
def Obligations.SentinelsRunOffTheEnd : Prop :=
  ∀ (labels : List (Text × Nat)) (name : Text) (k : Nat) (prog : List Entry),
    labelIndex labels name = none → wellFormedProgram prog → k < prog.length →
    ∃ index off,
      linkJump labels name = (index, [.undefinedLabel]) ∧
      linkBranch labels k name = .ok (off, [.undefinedLabel]) ∧
      (∀ s : State, s.prog = prog →
        jumpTarget (BitVec.ofNat 32 (4 * k + 4)) index = 0x0FFFFFFC#32 ∧
        ({ s with pc := jumpTarget (BitVec.ofNat 32 (4 * k + 4)) index } : State).halted = true ∧
        (branchTarget (BitVec.ofNat 32 (4 * k + 4)) off).toNat = 4 * (k + 32768) ∧
        (prog.length ≤ k + 32768 →
          ({ s with pc := branchTarget (BitVec.ofNat 32 (4 * k + 4)) off } : State).halted = true))

/-! ## Front end (30_encoding.md sections 2 to 5) -/

/-- An immediate literal not below -32768 is admitted, held modulo 2^16, and marked as overflowing exactly when it is above
0xFFFF; one below is refused (30_encoding.md R104, R110). -/
def Obligations.ImmediateLiteralsAreTruncatedAndMarked : Prop :=
  ∀ v : Int,
    (v < -32768 → immediateField v = .error .immediateTooLow) ∧
    (-32768 ≤ v → ∃ imm ovf, immediateField v = .ok (imm, ovf) ∧ (imm.toNat : Int) = v % 65536 ∧
      (ovf = true ↔ 65535 < v))

/-- A label definition binds the name to the next compact index, the last definition winning, reports a duplicate exactly
when the name was bound, and leaves every other label and the program alone; one with a digit is discarded with its
diagnostic (30_encoding.md R92, R93). -/
def Obligations.LastLabelDefinitionWins : Prop :=
  ∀ (st : LoaderState) (line : Nat) (name other : Text),
    (name.any Char.isDigit = false →
      labelIndex (st.define line name).labels name = some st.lines.length ∧
      (other ≠ name → labelIndex (st.define line name).labels other = labelIndex st.labels other) ∧
      (st.define line name).lines = st.lines ∧
      (st.define line name).diags =
        if labelIndex st.labels name = none then st.diags else st.diags ++ [⟨line, .duplicateLabel⟩]) ∧
    (name.any Char.isDigit = true →
      st.define line name = { st with diags := st.diags ++ [⟨line, .labelDigits⟩] })

/-- The front end's diagnostics are the loader's, in line order, and then the linker's, in program order; both precede
every engine diagnostic (30_encoding.md R101). -/
def Obligations.LoaderDiagnosticsPrecedeLinkerDiagnostics : Prop :=
  ∀ (p : LaunchParams) (text : Text) (s t : State), State.construct p text = .ok s → Reaches s t →
    ∃ loader linker engine : List Diagnostic, s.diags = loader ++ linker ∧ t.diags = loader ++ linker ++ engine ∧
      (∀ d ∈ loader, d.kind ∈ loaderKinds) ∧ loader.Pairwise (fun a b => a.line < b.line) ∧
      (∀ d ∈ linker, d.kind = .undefinedLabel) ∧ linker.Pairwise (fun a b => a.line < b.line) ∧
      (∀ d ∈ engine, d.kind ∈ engineKinds)

/-- A line without a separator is the no-op keyword, in any letter case, or INVALID; it never is refused
(30_encoding.md R102). Which characters separate and that letter case is ASCII's are the model's choices (log 11, 12). -/
def Obligations.LinesWithoutSeparatorAreNopOrInvalid : Prop :=
  ∀ (labels : List (Text × Nat)) (k : Nat) (t : Text), (∀ c ∈ t, isBlank c = false) →
    decodeLine labels k t = .ok (if t.map Char.toLower = ['n', 'o', 'p'] then .op .nop else .invalid, [])

/-- Each register is named by its o32 name, the 32 pairs of R21 written out, and by its decimal index (10_state.md R21,
30_encoding.md R87). The numbers are the spec's, which marks them as general knowledge (log 6). -/
def Obligations.RegistersResolveByNameAndIndex : Prop :=
  (∀ p ∈ ([("zero", 0), ("at", 1), ("v0", 2), ("v1", 3), ("a0", 4), ("a1", 5), ("a2", 6), ("a3", 7)] ++
    [("t0", 8), ("t1", 9), ("t2", 10), ("t3", 11), ("t4", 12), ("t5", 13), ("t6", 14), ("t7", 15)] ++
    [("s0", 16), ("s1", 17), ("s2", 18), ("s3", 19), ("s4", 20), ("s5", 21), ("s6", 22), ("s7", 23)] ++
    [("t8", 24), ("t9", 25), ("k0", 26), ("k1", 27), ("gp", 28), ("sp", 29), ("fp", 30), ("ra", 31)] : List (String × Nat)),
    resolveRegister ('$' :: p.1.toList) = .ok (BitVec.ofNat 5 p.2)) ∧
  ∀ i : Fin 32, resolveRegister ('$' :: i.val.repr.toList) = .ok (BitVec.ofNat 5 i.val)

/-- Each entry of the program store comes from one line of the text: as many entries as instruction lines, in order, each
with its own source line and the record of that line's decode under the whole label table (30_encoding.md R81, R95,
R109). -/
def Obligations.EntriesAreTheDecodedLines : Prop :=
  ∀ (text : Text) (prog : List Entry) (diags : List Diagnostic), frontEnd text = .ok (prog, diags) →
    prog.length = (load text).lines.length ∧
    ∀ (k : Nat) (e : Entry) (l : SourceLine), prog[k]? = some e → (load text).lines[k]? = some l →
      e.line = l.line ∧ ∃ kinds, decodeLine (load text).labels k l.text = .ok (e.record, kinds)

/-! ## Run control (40_cycle.md R139 to R144) -/

/-- A run that ends without a model fault ends halted, in a state that its steps reach; giving it more fuel changes
nothing, and running out of fuel is not an end (40_cycle.md R141, R144). -/
def Obligations.RunEndsHaltedWhateverTheFuel : Prop :=
  ∀ (fuel : Nat) (s : State) (e : Engine), run fuel s = .ended e →
    (∀ t, e = .ready t → t.halted = true ∧ Reaches s t) ∧ ∀ more, run (fuel + more) s = .ended e

/-- `RunUntilLine(t)` ends after the first step that leaves `t` as the current line, or halted, or at a model fault
(40_cycle.md R142). -/
def Obligations.RunUntilLineEndsAtTheLineOrHalted : Prop :=
  ∀ (line fuel : Nat) (s t : State), runUntilLine line fuel s = .ended (.ready t) →
    ∃ n, n ≤ fuel ∧ Sys2Proof.core.run n s = .next t ∧ (t.halted = true ∨ (0 < n ∧ t.curLine = line)) ∧
      ∀ (m : Nat) (u : State), m < n → Sys2Proof.core.run m s = .next u →
        u.halted = false ∧ (0 < m → u.curLine ≠ line)

/-- No command has a transition after a model fault, and the faulted engine is not final (40_cycle.md R143). -/
def Obligations.FaultedEngineTakesNoCommand : Prop :=
  ∀ (f : Fault) (fuel : Nat) (c : Command),
    Engine.command fuel c (.faulted f) = .ended (.faulted f) ∧ (Engine.faulted f).final = false

/-- The register snapshot has 32 elements, each the register's signed value (10_state.md R37). -/
def Obligations.SnapshotShowsSignedRegisters : Prop :=
  ∀ s : State, s.snapshot.length = 32 ∧ ∀ r : RegIdx, s.snapshot[r.toNat]? = some (s.readReg r).toInt
end

