-- ==== Sys2Proof/Laws/Encoding.lean ====
section
/-! SUPPORT. The fields of an encoded word, and its fixed bits under the masks of the opcode table. -/

namespace Sys2Proof

/-- Bits above the right operand of an append are those of the left one. -/
theorem extract_append_high {n m : Nat} (x : BitVec n) (y : BitVec m) (start len : Nat) (h : m ≤ start) :
    (x ++ y).extractLsb' start len = x.extractLsb' (start - m) len := by
  apply BitVec.eq_of_getLsbD_eq
  intro i hi
  rw [BitVec.getLsbD_extractLsb', BitVec.getLsbD_extractLsb', BitVec.getLsbD_append]
  have h1 : ¬ start + i < m := by omega
  have h2 : start + i - m = start - m + i := by omega
  simp [h1, h2]

/-- Bits inside the right operand of an append are its own. -/
theorem extract_append_low {n m : Nat} (x : BitVec n) (y : BitVec m) (start len : Nat) (h : start + len ≤ m) :
    (x ++ y).extractLsb' start len = y.extractLsb' start len := by
  apply BitVec.eq_of_getLsbD_eq
  intro i hi
  rw [BitVec.getLsbD_extractLsb', BitVec.getLsbD_extractLsb', BitVec.getLsbD_append]
  have h1 : start + i < m := by omega
  simp [h1]

theorem extract_all {n : Nat} (x : BitVec n) : x.extractLsb' 0 n = x := by
  apply BitVec.eq_of_getLsbD_eq
  intro i hi
  simp [hi]

section
variable (rs rt rd : RegIdx) (sa : ShAmt) (funct : BitVec 6) (opcode : BitVec 6) (imm : Field16) (index : Index26)

@[simp] theorem fieldRs_wordR : fieldRs (wordR rs rt rd sa funct) = rs := by
  have h : (0x00#6 ++ rs ++ rt ++ rd ++ sa ++ funct).extractLsb' 21 5 = rs := by
    rw [extract_append_high _ _ _ _ (by decide), extract_append_high _ _ _ _ (by decide),
      extract_append_high _ _ _ _ (by decide), extract_append_high _ _ _ _ (by decide),
      extract_append_low _ _ _ _ (by decide)]
    exact extract_all rs
  exact h

@[simp] theorem fieldRt_wordR : fieldRt (wordR rs rt rd sa funct) = rt := by
  have h : (0x00#6 ++ rs ++ rt ++ rd ++ sa ++ funct).extractLsb' 16 5 = rt := by
    rw [extract_append_high _ _ _ _ (by decide), extract_append_high _ _ _ _ (by decide),
      extract_append_high _ _ _ _ (by decide), extract_append_low _ _ _ _ (by decide)]
    exact extract_all rt
  exact h

@[simp] theorem fieldRd_wordR : fieldRd (wordR rs rt rd sa funct) = rd := by
  have h : (0x00#6 ++ rs ++ rt ++ rd ++ sa ++ funct).extractLsb' 11 5 = rd := by
    rw [extract_append_high _ _ _ _ (by decide), extract_append_high _ _ _ _ (by decide),
      extract_append_low _ _ _ _ (by decide)]
    exact extract_all rd
  exact h

@[simp] theorem fieldSa_wordR : fieldSa (wordR rs rt rd sa funct) = sa := by
  have h : (0x00#6 ++ rs ++ rt ++ rd ++ sa ++ funct).extractLsb' 6 5 = sa := by
    rw [extract_append_high _ _ _ _ (by decide), extract_append_low _ _ _ _ (by decide)]
    exact extract_all sa
  exact h

@[simp] theorem fieldRs_wordI : fieldRs (wordI opcode rs rt imm) = rs := by
  have h : (opcode ++ rs ++ rt ++ imm).extractLsb' 21 5 = rs := by
    rw [extract_append_high _ _ _ _ (by decide), extract_append_high _ _ _ _ (by decide),
      extract_append_low _ _ _ _ (by decide)]
    exact extract_all rs
  exact h

@[simp] theorem fieldRt_wordI : fieldRt (wordI opcode rs rt imm) = rt := by
  have h : (opcode ++ rs ++ rt ++ imm).extractLsb' 16 5 = rt := by
    rw [extract_append_high _ _ _ _ (by decide), extract_append_low _ _ _ _ (by decide)]
    exact extract_all rt
  exact h

@[simp] theorem fieldImm_wordI : fieldImm (wordI opcode rs rt imm) = imm := by
  have h : (opcode ++ rs ++ rt ++ imm).extractLsb' 0 16 = imm := by
    rw [extract_append_low _ _ _ _ (by decide)]
    exact extract_all imm
  exact h

@[simp] theorem fieldIndex_wordJ : fieldIndex (wordJ opcode index) = index := by
  have h : (opcode ++ index).extractLsb' 0 26 = index := by
    rw [extract_append_low _ _ _ _ (by decide)]
    exact extract_all index
  exact h

/-- An R-type word under a mask, field by field. -/
theorem wordR_and (a b c : RegIdx) (d : ShAmt) (f : BitVec 6) :
    wordR rs rt rd sa funct &&& (63#6 ++ a ++ b ++ c ++ d ++ f) =
      wordR (rs &&& a) (rt &&& b) (rd &&& c) (sa &&& d) (funct &&& f) := by
  have h : (0x00#6 ++ rs ++ rt ++ rd ++ sa ++ funct) &&& (63#6 ++ a ++ b ++ c ++ d ++ f) =
      0x00#6 ++ (rs &&& a) ++ (rt &&& b) ++ (rd &&& c) ++ (sa &&& d) ++ (funct &&& f) := by
    rw [BitVec.and_append, BitVec.and_append, BitVec.and_append, BitVec.and_append, BitVec.and_append]
    rw [show 0x00#6 &&& 63#6 = 0x00#6 by decide]
  exact h

/-- An I-type word under a mask, field by field. -/
theorem wordI_and (a b : RegIdx) (f : Field16) :
    wordI opcode rs rt imm &&& (63#6 ++ a ++ b ++ f) = wordI opcode (rs &&& a) (rt &&& b) (imm &&& f) := by
  have h : (opcode ++ rs ++ rt ++ imm) &&& (63#6 ++ a ++ b ++ f) =
      opcode ++ (rs &&& a) ++ (rt &&& b) ++ (imm &&& f) := by
    rw [BitVec.and_append, BitVec.and_append, BitVec.and_append]
    rw [show opcode &&& 63#6 = opcode from BitVec.and_allOnes]
  exact h

theorem and_zeros {n : Nat} (x : BitVec n) : x &&& 0#n = 0#n := by simp

theorem and_ones5 (x : BitVec 5) : x &&& 31#5 = x := BitVec.and_allOnes

theorem and_ones6 (x : BitVec 6) : x &&& 63#6 = x := BitVec.and_allOnes

/-- The mask of the R-type rows with three register operands keeps sa and funct. -/
theorem wordR_mask_regs : wordR rs rt rd sa funct &&& 0xFC0007FF#32 = wordR 0#5 0#5 0#5 sa funct := by
  have h := wordR_and rs rt rd sa funct 0#5 0#5 0#5 31#5 63#6
  rw [and_zeros, and_zeros, and_zeros, and_ones5, and_ones6] at h
  exact h

/-- The mask of the immediate shifts keeps rs and funct. -/
theorem wordR_mask_shift : wordR rs rt rd sa funct &&& 0xFFE0003F#32 = wordR rs 0#5 0#5 0#5 funct := by
  have h := wordR_and rs rt rd sa funct 31#5 0#5 0#5 0#5 63#6
  rw [and_zeros, and_zeros, and_zeros, and_ones5, and_ones6] at h
  exact h

/-- The mask of the register jumps keeps all but rs. -/
theorem wordR_mask_jump : wordR rs rt rd sa funct &&& 0xFC1FFFFF#32 = wordR 0#5 rt rd sa funct := by
  have h := wordR_and rs rt rd sa funct 0#5 31#5 31#5 31#5 63#6
  rw [and_zeros, and_ones5, and_ones5, and_ones5, and_ones6] at h
  exact h

/-- The mask of the plain I-type rows keeps the opcode. -/
theorem wordI_mask_opcode : wordI opcode rs rt imm &&& 0xFC000000#32 = wordI opcode 0#5 0#5 0#16 := by
  have h := wordI_and rs rt opcode imm 0#5 0#5 0#16
  rw [and_zeros, and_zeros, and_zeros] at h
  exact h

/-- The mask of the branches that compare with zero keeps the opcode and rt. -/
theorem wordI_mask_branch : wordI opcode rs rt imm &&& 0xFC1F0000#32 = wordI opcode 0#5 rt 0#16 := by
  have h := wordI_and rs rt opcode imm 0#5 31#5 0#16
  rw [and_zeros, and_ones5, and_zeros] at h
  exact h

/-- The mask of `lui` keeps the opcode and rs. -/
theorem wordI_mask_upper : wordI opcode rs rt imm &&& 0xFFE00000#32 = wordI opcode rs 0#5 0#16 := by
  have h := wordI_and rs rt opcode imm 31#5 0#5 0#16
  rw [and_zeros, and_ones5, and_zeros] at h
  exact h

/-- The mask of the jumps keeps the opcode. -/
theorem wordJ_mask : wordJ opcode index &&& 0xFC000000#32 = wordJ opcode 0#26 := by
  have h : (opcode ++ index) &&& (63#6 ++ 0#26) = opcode ++ 0#26 := by
    rw [BitVec.and_append, and_zeros, and_ones6]
  exact h

end

/-! ## A word and its fields -/

/-- Two neighbouring fields of a word, appended. -/
theorem extract_join (w : Word) (low len1 len2 : Nat) :
    w.extractLsb' (low + len2) len1 ++ w.extractLsb' low len2 = w.extractLsb' low (len1 + len2) := by
  apply BitVec.eq_of_getLsbD_eq
  intro i hi
  rw [BitVec.getLsbD_append, BitVec.getLsbD_extractLsb', BitVec.getLsbD_extractLsb', BitVec.getLsbD_extractLsb']
  by_cases h : i < len2
  · simp [h, hi]
  · have h1 : low + len2 + (i - len2) = low + i := by omega
    have h2 : i - len2 < len1 := by omega
    simp [h, h1, h2, hi]

/-- A word is the J-type word of its fields (30_encoding.md R111). -/
theorem wordJ_fields (w : Word) : wordJ (w.extractLsb' 26 6) (fieldIndex w) = w :=
  (extract_join w 0 6 26).trans (extract_all w)

/-- A word is the I-type word of its fields (30_encoding.md R111). -/
theorem wordI_fields (w : Word) : wordI (w.extractLsb' 26 6) (fieldRs w) (fieldRt w) (fieldImm w) = w := by
  have h : (w.extractLsb' 26 6 ++ w.extractLsb' 21 5 ++ w.extractLsb' 16 5) ++ w.extractLsb' 0 16 = w := by
    rw [show w.extractLsb' 26 6 ++ w.extractLsb' 21 5 = w.extractLsb' 21 11 from extract_join w 21 6 5,
      show w.extractLsb' 21 11 ++ w.extractLsb' 16 5 = w.extractLsb' 16 16 from extract_join w 16 11 5,
      show w.extractLsb' 16 16 ++ w.extractLsb' 0 16 = w.extractLsb' 0 32 from extract_join w 0 16 16]
    exact extract_all w
  exact h

/-- A word of opcode SPECIAL is the R-type word of its fields (30_encoding.md R111). -/
theorem wordR_fields {w : Word} (hw : w.extractLsb' 26 6 = 0x00#6) :
    wordR (fieldRs w) (fieldRt w) (fieldRd w) (fieldSa w) (w.extractLsb' 0 6) = w := by
  have h : (0x00#6 ++ w.extractLsb' 21 5 ++ w.extractLsb' 16 5 ++ w.extractLsb' 11 5 ++ w.extractLsb' 6 5) ++
      w.extractLsb' 0 6 = w := by
    rw [← hw,
      show w.extractLsb' 26 6 ++ w.extractLsb' 21 5 = w.extractLsb' 21 11 from extract_join w 21 6 5,
      show w.extractLsb' 21 11 ++ w.extractLsb' 16 5 = w.extractLsb' 16 16 from extract_join w 16 11 5,
      show w.extractLsb' 16 16 ++ w.extractLsb' 11 5 = w.extractLsb' 11 21 from extract_join w 11 16 5,
      show w.extractLsb' 11 21 ++ w.extractLsb' 6 5 = w.extractLsb' 6 26 from extract_join w 6 21 5,
      show w.extractLsb' 6 26 ++ w.extractLsb' 0 6 = w.extractLsb' 0 32 from extract_join w 0 26 6]
    exact extract_all w
  exact h

/-- A field of a word that hits a pattern under a mask: the pattern's field, where the mask is set. -/
theorem extract_of_and {w mask pattern : Word} (h : w &&& mask = pattern) (start len : Nat) :
    w.extractLsb' start len &&& mask.extractLsb' start len = pattern.extractLsb' start len := by
  rw [← h]
  apply BitVec.eq_of_getLsbD_eq
  intro i hi
  simp [hi]

/-! ## The table as a whole -/

/-- Two rows that no word can hit together: some bit is fixed in both, to different values. -/
def OpcodeRow.apart (p q : OpcodeRow) : Bool :=
  decide ((p.mask &&& q.mask) &&& (p.pattern ^^^ q.pattern) ≠ 0#32)

theorem not_both_hit {p q : OpcodeRow} (h : p.apart q = true) (w : Word) :
    ¬ (p.hits w = true ∧ q.hits w = true) := by
  rintro ⟨hp, hq⟩
  simp only [OpcodeRow.hits, beq_iff_eq] at hp hq
  simp only [OpcodeRow.apart, decide_eq_true_eq] at h
  apply h
  rw [← hp, ← hq]
  apply BitVec.eq_of_getLsbD_eq
  intro i hi
  simp only [BitVec.getLsbD_and, BitVec.getLsbD_xor, BitVec.getLsbD_zero]
  cases w.getLsbD i <;> cases p.mask.getLsbD i <;> cases q.mask.getLsbD i <;> rfl

/-- In a table whose rows are pairwise apart, the row a word hits is the one found. -/
theorem find_hit {rows : List OpcodeRow} (hp : rows.Pairwise (fun p q => p.apart q = true)) {r : OpcodeRow}
    (hr : r ∈ rows) {w : Word} (hw : r.hits w = true) : rows.find? (fun p => p.hits w) = some r := by
  induction rows with
  | nil => simp at hr
  | cons p rows ih =>
    have hp' := List.pairwise_cons.1 hp
    rcases List.mem_cons.1 hr with rfl | hr
    · simp [hw]
    · have hno : p.hits w = false := by
        have := not_both_hit (hp'.1 r hr) w
        simpa [hw] using this
      simp only [List.find?_cons, hno]
      exact ih hp'.2 hr

end Sys2Proof
end

