-- ==== Sys2Proof/Laws/Memory.lean ====
section
/-! SUPPORT. The laws of data memory: reading after writing, and the canonical form. -/

namespace Sys2Proof.Machine

/-- A byte reads what was last written to it, and a write leaves every other byte alone. In canonical form
an address below every listed one is not listed. -/
theorem Memory.read_eq_unlisted {m : Memory} {a : Nat} (h : ∀ c ∈ m, a < c.1) : m.read a = Memory.unlisted := by
  induction m with
  | nil => rfl
  | cons c m ih =>
    have := h c (by simp)
    have hne : ¬ c.1 = a := by omega
    simp only [Memory.read, hne, if_false]
    exact ih (fun d hd => h d (by simp [hd]))

theorem Memory.wf_tail {c : Host.Cell} {m : Memory} (h : Memory.wf (c :: m)) : Memory.wf m :=
  ⟨(List.pairwise_cons.1 h.1).2, fun d hd => h.2 d (by simp [hd])⟩

theorem Memory.wf_head_lt {c : Host.Cell} {m : Memory} (h : Memory.wf (c :: m)) : ∀ d ∈ m, c.1 < d.1 :=
  (List.pairwise_cons.1 h.1).1

theorem Memory.wf_cons {c : Host.Cell} {m : Memory} (hm : Memory.wf m) (hlt : ∀ d ∈ m, c.1 < d.1)
    (hc : c.1 < memSize) (hv : c.2 ≠ Memory.unlisted) : Memory.wf (c :: m) := by
  refine ⟨List.pairwise_cons.2 ⟨hlt, hm.1⟩, fun d hd => ?_⟩
  rcases List.mem_cons.1 hd with rfl | hd
  · exact ⟨hc, hv⟩
  · exact hm.2 d hd

@[simp] theorem Memory.wf_nil : Memory.wf [] := by simp [Memory.wf]

/-- Reading after writing one byte. -/
theorem Memory.read_write {m : Memory} (hm : m.wf) (a b : Nat) (v : Byte) :
    (m.write a v).read b = if b = a then v else m.read b := by
  induction m with
  | nil =>
    by_cases hv : v = Memory.unlisted <;> by_cases hb : b = a
    · simp [Memory.write, Memory.read, hv]
    · simp [Memory.write, Memory.read, hv]
    · simp [Memory.write, Memory.read, hv, hb]
    · have : ¬ a = b := fun e => hb e.symm
      simp [Memory.write, Memory.read, hv, hb, this]
  | cons c m ih =>
    obtain ⟨x, w⟩ := c
    have ih := ih (Memory.wf_tail hm)
    have hlt := Memory.wf_head_lt hm
    rcases Nat.lt_trichotomy a x with h | h | h
    · have hun : Memory.read ((x, w) :: m) a = Memory.unlisted :=
        Memory.read_eq_unlisted (by
          intro c hc
          rcases List.mem_cons.1 hc with rfl | hc
          · exact h
          · exact Nat.lt_trans h (hlt c hc))
      by_cases hv : v = Memory.unlisted
      · rw [Memory.write, if_pos h, if_pos hv]
        by_cases hb : b = a
        · rw [if_pos hb, hb, hun, hv]
        · rw [if_neg hb]
      · rw [Memory.write, if_pos h, if_neg hv]
        by_cases hb : b = a
        · rw [if_pos hb, hb, Memory.read, if_pos rfl]
        · rw [if_neg hb]
          conv_lhs => rw [Memory.read, if_neg (fun e => hb e.symm)]
    · subst h
      have hun : Memory.read m a = Memory.unlisted := Memory.read_eq_unlisted (fun c hc => hlt c hc)
      by_cases hv : v = Memory.unlisted
      · rw [Memory.write, if_neg (Nat.lt_irrefl a), if_pos rfl, if_pos hv]
        by_cases hb : b = a
        · rw [if_pos hb, hb, hun, hv]
        · rw [if_neg hb, Memory.read, if_neg (fun e => hb e.symm)]
      · rw [Memory.write, if_neg (Nat.lt_irrefl a), if_pos rfl, if_neg hv]
        by_cases hb : b = a
        · rw [if_pos hb, hb, Memory.read, if_pos rfl]
        · rw [if_neg hb, Memory.read, if_neg (fun e => hb e.symm), Memory.read, if_neg (fun e => hb e.symm)]
    · have h1 : ¬ a < x := by omega
      have h2 : ¬ a = x := by omega
      rw [Memory.write, if_neg h1, if_neg h2]
      by_cases hx : x = b
      · have hb : ¬ b = a := by omega
        rw [Memory.read, if_pos hx, if_neg hb, Memory.read, if_pos hx]
      · rw [Memory.read, if_neg hx, ih, Memory.read, if_neg hx]

/-- The cells a write leaves listed are those there were, and the cell written. -/
theorem Memory.mem_write {m : Memory} {a : Nat} {v : Byte} {c : Host.Cell} (h : c ∈ m.write a v) :
    c ∈ m ∨ (c = (a, v) ∧ v ≠ Memory.unlisted) := by
  induction m with
  | nil =>
    by_cases hv : v = Memory.unlisted <;> simp_all [Memory.write]
  | cons d m ih =>
    obtain ⟨x, w⟩ := d
    simp only [Memory.write] at h
    split at h
    · split at h
      · exact .inl h
      · rcases List.mem_cons.1 h with rfl | h
        · exact .inr ⟨rfl, ‹_›⟩
        · exact .inl h
    · split at h
      · split at h
        · exact .inl (by simp [h])
        · rcases List.mem_cons.1 h with rfl | h
          · exact .inr ⟨rfl, ‹_›⟩
          · exact .inl (by simp [h])
      · rcases List.mem_cons.1 h with rfl | h
        · exact .inl (by simp)
        · rcases ih h with h | h
          · exact .inl (by simp [h])
          · exact .inr h

/-- A write inside [0, 2^24) keeps the canonical form. -/
theorem Memory.wf_write {m : Memory} (hm : m.wf) {a : Nat} (ha : a < memSize) (v : Byte) : (m.write a v).wf := by
  induction m with
  | nil =>
    by_cases hv : v = Memory.unlisted
    · rw [Memory.write, if_pos hv]
      exact Memory.wf_nil
    · simpa [Memory.write, hv] using Memory.wf_cons (c := (a, v)) Memory.wf_nil (by simp) ha hv
  | cons d m ih =>
    obtain ⟨x, w⟩ := d
    have hlt := Memory.wf_head_lt hm
    have hx := hm.2 (x, w) (by simp)
    simp only [Memory.write]
    split
    · split
      · exact hm
      · refine Memory.wf_cons hm (fun c hc => ?_) ha ‹_›
        rcases List.mem_cons.1 hc with rfl | hc
        · assumption
        · exact Nat.lt_trans ‹_› (hlt c hc)
    · split
      · split
        · exact Memory.wf_tail hm
        · subst_vars
          exact Memory.wf_cons (Memory.wf_tail hm) hlt ha ‹_›
      · refine Memory.wf_cons (ih (Memory.wf_tail hm)) (fun c hc => ?_) hx.1 hx.2
        rcases Memory.mem_write hc with hc | ⟨rfl, -⟩
        · exact hlt c hc
        · show x < a
          omega

/-- Memories in canonical form that read alike are equal. -/
theorem Memory.eq_of_read {m n : Memory} (hm : m.wf) (hn : n.wf) (h : ∀ a, m.read a = n.read a) : m = n := by
  induction m generalizing n with
  | nil =>
    cases n with
    | nil => rfl
    | cons d n =>
      exact absurd (by simpa [Memory.read] using (h d.1).symm) (hn.2 d (by simp)).2
  | cons c m ih =>
    have hc := hm.2 c (by simp)
    have hcm := Memory.wf_head_lt hm
    have lowest : ∀ {k : Memory} {a : Nat}, (∀ e ∈ k, a < e.1) → k.read a = Memory.unlisted :=
      fun h => Memory.read_eq_unlisted h
    cases n with
    | nil => exact absurd (by simpa [Memory.read] using h c.1) hc.2
    | cons d n =>
      have hd := hn.2 d (by simp)
      have hdn := Memory.wf_head_lt hn
      have hfst : c.1 = d.1 := by
        rcases Nat.lt_trichotomy c.1 d.1 with hlt | heq | hlt
        · have := h c.1
          rw [Memory.read, if_pos rfl, lowest (k := d :: n)] at this
          · exact absurd this hc.2
          · intro e he
            rcases List.mem_cons.1 he with rfl | he
            · exact hlt
            · exact Nat.lt_trans hlt (hdn e he)
        · exact heq
        · have := h d.1
          rw [Memory.read.eq_def (d :: n)] at this
          simp only [if_true] at this
          rw [lowest (k := c :: m)] at this
          · exact absurd this.symm hd.2
          · intro e he
            rcases List.mem_cons.1 he with rfl | he
            · exact hlt
            · exact Nat.lt_trans hlt (hcm e he)
      have hsnd : c.2 = d.2 := by
        have := h c.1
        simpa [Memory.read, hfst] using this
      have hrest : m = n := by
        refine ih (Memory.wf_tail hm) (Memory.wf_tail hn) (fun a => ?_)
        by_cases ha : c.1 = a
        · rw [lowest, lowest]
          · intro e he; exact ha ▸ hfst ▸ hdn e he
          · intro e he; exact ha ▸ hcm e he
        · have := h a
          simpa [Memory.read, ha, hfst ▸ ha] using this
      rw [hrest, Prod.ext hfst hsnd]

/-- The memory a launch builds is in canonical form. -/
theorem Memory.wf_ofCells (cells : List Host.Cell) : (Memory.ofCells cells).wf := by
  have go : ∀ (cells : List Host.Cell) (m : Memory), m.wf →
      (cells.foldl (fun m c => if c.1 < memSize then m.write c.1 c.2 else m) m).wf := by
    intro cells
    induction cells with
    | nil => exact fun m hm => hm
    | cons c cells ih =>
      intro m hm
      refine ih _ ?_
      dsimp only
      split
      · exact Memory.wf_write hm ‹_› _
      · exact hm
  exact go cells [] Memory.wf_nil

/-- Writing past every listed address appends the cell. -/
theorem Memory.write_after {c : Host.Cell} (hc : c.2 ≠ Memory.unlisted) {m : Memory} (h : ∀ d ∈ m, d.1 < c.1) :
    m.write c.1 c.2 = m ++ [c] := by
  induction m with
  | nil => simp [Memory.write, hc]
  | cons d m ih =>
    have := h d (by simp)
    simp only [Memory.write]
    rw [if_neg (by omega), if_neg (by omega), ih (fun e he => h e (by simp [he]))]
    rfl


/-- The first and the last byte of an access in range lie in memory. -/
theorem inRange_iff {ea : Int} {n : Nat} : inRange ea n = true ↔ 0 ≤ ea ∧ ea + n ≤ memSize := by
  simp only [inRange, decide_eq_true_eq]
  omega

/-- A word write in range keeps the canonical form. -/
theorem Memory.wf_write4 {m : Memory} (hm : m.wf) {a : Nat} (ha : a + 4 ≤ memSize) (v : Word) : (m.write4 a v).wf :=
  Memory.wf_write (Memory.wf_write (Memory.wf_write (Memory.wf_write hm (by omega) _) (by omega) _) (by omega) _)
    (by omega) _

theorem Memory.wf_write1 {m : Memory} (hm : m.wf) {a : Nat} (ha : a + 1 ≤ memSize) (v : Word) : (m.write1 a v).wf :=
  Memory.wf_write hm (by omega) _

/-- What each byte reads after a word write in range (20_memory.md R56). -/
theorem Memory.read_write4 {m : Memory} (hm : m.wf) {a : Nat} (ha : a + 4 ≤ memSize) (v : Word) (b : Nat) :
    (m.write4 a v).read b =
      if b = a + 3 then v.extractLsb' 24 8 else if b = a + 2 then v.extractLsb' 16 8
      else if b = a + 1 then v.extractLsb' 8 8 else if b = a then v.extractLsb' 0 8 else m.read b := by
  have h0 := Memory.wf_write hm (a := a) (by omega) (v.extractLsb' 0 8)
  have h1 := Memory.wf_write h0 (a := a + 1) (by omega) (v.extractLsb' 8 8)
  have h2 := Memory.wf_write h1 (a := a + 2) (by omega) (v.extractLsb' 16 8)
  rw [Memory.write4, Memory.read_write h2, Memory.read_write h1, Memory.read_write h0, Memory.read_write hm]

/-- What each byte reads after a byte write (20_memory.md R56). -/
theorem Memory.read_write1 {m : Memory} (hm : m.wf) (a : Nat) (v : Word) (b : Nat) :
    (m.write1 a v).read b = if b = a then v.extractLsb' 0 8 else m.read b :=
  Memory.read_write hm a b _

end Sys2Proof.Machine
end

