-- ==== Sys2Proof/Laws/State.lean ====
section
/-! SUPPORT. One lemma for each field and each update of the state, and the laws of the register file. -/

namespace Sys2Proof.Machine

section
variable (s : State) (i r : RegIdx) (v : Word) (k : DiagKind)

@[simp] theorem writeReg_pc : (s.writeReg i v).pc = s.pc := rfl
@[simp] theorem writeReg_inDelaySlot : (s.writeReg i v).inDelaySlot = s.inDelaySlot := rfl
@[simp] theorem writeReg_curIndex : (s.writeReg i v).curIndex = s.curIndex := rfl
@[simp] theorem writeReg_curLine : (s.writeReg i v).curLine = s.curLine := rfl
@[simp] theorem writeReg_mem : (s.writeReg i v).mem = s.mem := rfl
@[simp] theorem writeReg_prog : (s.writeReg i v).prog = s.prog := rfl
@[simp] theorem writeReg_diags : (s.writeReg i v).diags = s.diags := rfl
@[simp] theorem writeReg_linkTiming : (s.writeReg i v).linkTiming = s.linkTiming := rfl

@[simp] theorem diag_regs : (s.diag k).regs = s.regs := rfl
@[simp] theorem diag_pc : (s.diag k).pc = s.pc := rfl
@[simp] theorem diag_inDelaySlot : (s.diag k).inDelaySlot = s.inDelaySlot := rfl
@[simp] theorem diag_curIndex : (s.diag k).curIndex = s.curIndex := rfl
@[simp] theorem diag_curLine : (s.diag k).curLine = s.curLine := rfl
@[simp] theorem diag_mem : (s.diag k).mem = s.mem := rfl
@[simp] theorem diag_prog : (s.diag k).prog = s.prog := rfl
@[simp] theorem diag_diags : (s.diag k).diags = s.diags ++ [⟨s.curLine, k⟩] := rfl
@[simp] theorem diag_linkTiming : (s.diag k).linkTiming = s.linkTiming := rfl
@[simp] theorem readReg_diag : (s.diag k).readReg r = s.readReg r := rfl

@[simp] theorem forceZero_pc : s.forceZero.pc = s.pc := rfl
@[simp] theorem forceZero_inDelaySlot : s.forceZero.inDelaySlot = s.inDelaySlot := rfl
@[simp] theorem forceZero_curIndex : s.forceZero.curIndex = s.curIndex := rfl
@[simp] theorem forceZero_curLine : s.forceZero.curLine = s.curLine := rfl
@[simp] theorem forceZero_mem : s.forceZero.mem = s.mem := rfl
@[simp] theorem forceZero_prog : s.forceZero.prog = s.prog := rfl
@[simp] theorem forceZero_diags : s.forceZero.diags = s.diags := rfl
@[simp] theorem forceZero_linkTiming : s.forceZero.linkTiming = s.linkTiming := rfl

/-- A register reads what was last written to it, and a write leaves every other register alone. -/
theorem readReg_writeReg : (s.writeReg i v).readReg r = if r = i then v else s.readReg r := by
  simp only [State.readReg, State.writeReg, Vector.getElem_set]
  by_cases h : r = i
  · simp [h]
  · have : ¬ i.toNat = r.toNat := fun e => h (BitVec.eq_of_toNat_eq e.symm)
    simp [h, this]

@[simp] theorem readReg_writeReg_self : (s.writeReg i v).readReg i = v := by
  simp [readReg_writeReg]

theorem readReg_writeReg_ne (h : r ≠ i) : (s.writeReg i v).readReg r = s.readReg r := by
  simp [readReg_writeReg, h]

/-- The forcing of register 0 (10_state.md R22). -/
theorem readReg_forceZero : s.forceZero.readReg r = if r = zeroReg then 0#32 else s.readReg r :=
  readReg_writeReg ..

@[simp] theorem forceZero_readReg_zero : s.forceZero.readReg zeroReg = 0#32 := by
  simp [State.forceZero]

end

/-- A register file is determined by what its registers read. -/
theorem regs_eq_of_readReg {s t : State} (h : ∀ r, s.readReg r = t.readReg r) : s.regs = t.regs := by
  apply Vector.ext
  intro n hn
  have := h (BitVec.ofNat 5 n)
  simpa [State.readReg, Nat.mod_eq_of_lt hn] using this

/-- Two writes to different registers commute. -/
theorem writeReg_comm (s : State) {i j : RegIdx} (v w : Word) (h : i ≠ j) :
    (s.writeReg i v).writeReg j w = (s.writeReg j w).writeReg i v := by
  have : i.toNat ≠ j.toNat := fun e => h (BitVec.eq_of_toNat_eq e)
  simp [State.writeReg, Vector.set_comm _ _ this]

end Sys2Proof.Machine
end

