-- ==== Sys2Proof/Laws/Ops.lean ====
section
/-! SUPPORT. One lemma for each shared operation: fetch, the results it passes on, loads, stores and immediates. -/

namespace Sys2Proof.Machine

/-! ## Results -/

theorem onNext_next_iff {f : State → State} {r : Result} {t : State} :
    onNext f r = .next t ↔ ∃ u, r = .next u ∧ t = f u := by
  cases r <;> simp [onNext, eq_comm]

theorem onNext_fault_iff {f : State → State} {r : Result} {x : Fault} :
    onNext f r = .fault x ↔ r = .fault x := by
  cases r <;> simp [onNext]

@[simp] theorem onNext_next (f : State → State) (s : State) : onNext f (.next s) = .next (f s) := rfl

/-! ## Fetch -/

section
variable (s : State) (e : Entry)

@[simp] theorem fetched_regs : (s.fetched e).regs = s.regs := rfl
@[simp] theorem fetched_pc : (s.fetched e).pc = s.pc + 4#32 := rfl
@[simp] theorem fetched_inDelaySlot : (s.fetched e).inDelaySlot = s.inDelaySlot := rfl
@[simp] theorem fetched_curIndex : (s.fetched e).curIndex = s.pc.toNat / 4 := rfl
@[simp] theorem fetched_curLine : (s.fetched e).curLine = e.line := rfl
@[simp] theorem fetched_mem : (s.fetched e).mem = s.mem := rfl
@[simp] theorem fetched_prog : (s.fetched e).prog = s.prog := rfl
@[simp] theorem fetched_diags : (s.fetched e).diags = s.diags := rfl
@[simp] theorem fetched_linkTiming : (s.fetched e).linkTiming = s.linkTiming := rfl
@[simp] theorem fetched_readReg (r : RegIdx) : (s.fetched e).readReg r = s.readReg r := rfl

end

theorem halted_iff {s : State} : s.halted = true ↔ 4 * s.prog.length ≤ s.pc.toNat := by
  simp [State.halted]

/-- A fetch finds no entry exactly when the engine is halted (40_cycle.md R139). -/
theorem fetch_pastEnd_iff {s : State} : s.fetch = .pastEnd ↔ s.halted = true := by
  rw [halted_iff, State.fetch]
  cases h : s.prog[s.pc.toNat / 4]? with
  | none =>
    have := List.getElem?_eq_none_iff.1 h
    simp only [true_iff]
    omega
  | some e =>
    have := (List.getElem?_eq_some_iff.1 h).1
    dsimp only
    split <;> simp <;> omega

/-- A fetch is misaligned exactly at an in-bounds pc that is not a multiple of 4 (40_cycle.md R132). -/
theorem fetch_misaligned_iff {s : State} :
    s.fetch = .misaligned ↔ s.halted = false ∧ s.pc.toNat % 4 ≠ 0 := by
  rw [← Bool.not_eq_true, ← fetch_pastEnd_iff, State.fetch]
  cases s.prog[s.pc.toNat / 4]? with
  | none => simp
  | some e => by_cases h : s.pc.toNat % 4 = 0 <;> simp [h]

/-- What a fetch that finds an entry answers. -/
theorem fetch_entry_iff {s t : State} {r : Record} :
    s.fetch = .entry r t ↔
      s.pc.toNat % 4 = 0 ∧ ∃ e, s.prog[s.pc.toNat / 4]? = some e ∧ r = e.record ∧ t = s.fetched e := by
  rw [State.fetch]
  cases s.prog[s.pc.toNat / 4]? with
  | none => simp
  | some e => by_cases h : s.pc.toNat % 4 = 0 <;> simp [h, eq_comm]

/-- An aligned pc within bounds fetches an entry. -/
theorem fetch_of_ready {s : State} (ha : s.pc.toNat % 4 = 0) (hi : s.pc.toNat < 4 * s.prog.length) :
    ∃ e, s.prog[s.pc.toNat / 4]? = some e ∧ s.fetch = .entry e.record (s.fetched e) := by
  have hk : s.pc.toNat / 4 < s.prog.length := by omega
  exact ⟨s.prog[s.pc.toNat / 4], List.getElem?_eq_getElem hk,
    fetch_entry_iff.2 ⟨ha, _, List.getElem?_eq_getElem hk, rfl, rfl⟩⟩

/-! ## What an instruction that is no transfer can do -/

/-- Everything an instruction that is no transfer can do, whatever it is: it leaves control alone, keeps the
canonical form of memory, and reports at most one diagnostic, of a kind of the engine's (60_exceptions.md R305). -/
structure StraightEffect (s t : State) : Prop extends SameControl s t where
  mem : s.mem.wf → t.mem.wf
  reports : Reports s t [] ∨ ∃ k ∈ engineKinds, Reports s t [k]

theorem straight_self (s : State) : StraightEffect s s :=
  ⟨⟨⟨rfl, rfl⟩, rfl, rfl, rfl, rfl⟩, id, .inl (by simp [Reports])⟩

theorem straight_writeReg (s : State) (i : RegIdx) (v : Word) : StraightEffect s (s.writeReg i v) :=
  ⟨⟨⟨rfl, rfl⟩, rfl, rfl, rfl, rfl⟩, id, .inl (by simp [Reports])⟩

theorem straight_diag (s : State) {k : DiagKind} (hk : k ∈ engineKinds) : StraightEffect s (s.diag k) :=
  ⟨⟨⟨rfl, rfl⟩, rfl, rfl, rfl, rfl⟩, id, .inr ⟨k, hk, by simp [Reports]⟩⟩

theorem straight_diag_writeReg (s : State) {k : DiagKind} (hk : k ∈ engineKinds) (i : RegIdx) (v : Word) :
    StraightEffect s ((s.diag k).writeReg i v) :=
  ⟨⟨⟨rfl, rfl⟩, rfl, rfl, rfl, rfl⟩, id, .inr ⟨k, hk, by simp [Reports]⟩⟩

theorem straight_immediate (s : State) (rt : RegIdx) (ovf : Bool) (v : Word) :
    StraightEffect s (s.immediate rt ovf v) := by
  unfold State.immediate
  split
  · exact straight_diag_writeReg _ (by decide) ..
  · exact straight_writeReg ..

theorem straight_load (s : State) (rt base : RegIdx) (off : Field16) (n : Nat) (f : Memory → Nat → Word) :
    StraightEffect s (s.load rt base off n f) := by
  simp only [State.load]
  split
  · exact straight_writeReg ..
  · exact straight_diag_writeReg _ (by decide) ..

/-- A store in range changes memory alone; `hw` says that the write keeps the canonical form. -/
theorem straight_store (s : State) (rt base : RegIdx) (off : Field16) (n : Nat)
    (f : Memory → Nat → Word → Memory)
    (hw : ∀ (m : Memory) (a : Nat) (v : Word), m.wf → a + n ≤ memSize → (f m a v).wf) :
    StraightEffect s (s.store rt base off n f) := by
  simp only [State.store]
  split
  · rename_i h
    have := inRange_iff.1 h
    exact ⟨⟨⟨rfl, rfl⟩, rfl, rfl, rfl, rfl⟩, fun hm => hw _ _ _ hm (by omega),
      .inl (by simp [Reports])⟩
  · exact straight_diag _ (by decide)

/-- The forcing of register 0 changes no more than register 0. -/
theorem straight_forceZero {s t : State} (h : StraightEffect s t) : StraightEffect s t.forceZero :=
  ⟨⟨⟨h.prog, h.linkTiming⟩, h.pc, h.inDelaySlot, h.curIndex, h.curLine⟩, h.mem, h.reports⟩

/-! ## Loads, stores and immediates, case by case -/

theorem load_inRange {s : State} {rt base : RegIdx} {off : Field16} {n : Nat} {f : Memory → Nat → Word}
    (h : inRange (effectiveAddress (s.readReg base) off) n = true) :
    s.load rt base off n f = s.writeReg rt (f s.mem (effectiveAddress (s.readReg base) off).toNat) := by
  simp [State.load, h]

theorem load_outOfRange {s : State} {rt base : RegIdx} {off : Field16} {n : Nat} {f : Memory → Nat → Word}
    (h : inRange (effectiveAddress (s.readReg base) off) n = false) :
    s.load rt base off n f = (s.diag .invalidMemoryLocation).writeReg rt 0#32 := by
  simp [State.load, h]

theorem store_inRange {s : State} {rt base : RegIdx} {off : Field16} {n : Nat} {f : Memory → Nat → Word → Memory}
    (h : inRange (effectiveAddress (s.readReg base) off) n = true) :
    s.store rt base off n f =
      { s with mem := f s.mem (effectiveAddress (s.readReg base) off).toNat (s.readReg rt) } := by
  simp [State.store, h]

theorem store_outOfRange {s : State} {rt base : RegIdx} {off : Field16} {n : Nat} {f : Memory → Nat → Word → Memory}
    (h : inRange (effectiveAddress (s.readReg base) off) n = false) :
    s.store rt base off n f = s.diag .invalidMemoryLocation := by
  simp [State.store, h]

theorem writesOnly_writeReg (s : State) (rd : RegIdx) (v : Word) : WritesOnly s (s.writeReg rd v) rd v [] :=
  ⟨⟨by simp, fun r h => readReg_writeReg_ne s rd r v h⟩, ⟨⟨rfl, rfl⟩, rfl, rfl, rfl, rfl⟩, fun _ => rfl,
    by simp [Reports]⟩

theorem writesOnly_diag_writeReg (s : State) (k : DiagKind) (rd : RegIdx) (v : Word) :
    WritesOnly s ((s.diag k).writeReg rd v) rd v [k] :=
  ⟨⟨by simp, fun r h => by rw [readReg_writeReg_ne _ rd r v h]; rfl⟩, ⟨⟨rfl, rfl⟩, rfl, rfl, rfl, rfl⟩,
    fun _ => rfl, by simp [Reports]⟩

theorem writesOnly_immediate (s : State) (rt : RegIdx) (ovf : Bool) (v : Word) :
    WritesOnly s (s.immediate rt ovf v) rt v (if ovf then [.immediateOverflow] else []) := by
  cases ovf
  · exact writesOnly_writeReg ..
  · exact writesOnly_diag_writeReg ..

end Sys2Proof.Machine
end

