-- ==== Sys2Proof/Laws/Exec.lean ====
section
/-! SUPPORT. What dispatch, the delay slot, the transfer handler and a step can do, said once. -/

namespace Sys2Proof.Machine

/-- The nested step's dispatch always answers a next state, and what it can do there. -/
theorem slotExec_next (i : Instr) (s : State) : ∃ t, slotExec i s = .next t ∧ StraightEffect s t := by
  cases i <;> simp only [slotExec, nestedTransfer, execNop, execAddiu, execAndi, execOri, execXori, execSlti,
    execSltiu, execLui, execAddu, execSubu, execAnd, execOr, execXor, execNor, execSlt, execSltu, execMovn,
    execMovz, execSll, execSrl, execSra, execSllv, execSrlv, execSrav, execLw, execLb, execLbu, execSw,
    execSb]
  all_goals refine ⟨_, rfl, ?_⟩
  all_goals first
    | exact straight_self _
    | exact straight_writeReg ..
    | exact straight_diag _ (by decide)
    | exact straight_immediate ..
    | exact straight_load ..
    | exact straight_store _ _ _ _ _ _ (fun _ _ _ hm ha => Memory.wf_write4 hm ha _)
    | exact straight_store _ _ _ _ _ _ (fun _ _ _ hm ha => Memory.wf_write1 hm ha _)
    | (split <;> first | exact straight_writeReg .. | exact straight_self _)

theorem slotExecRecord_next (r : Record) (s : State) :
    ∃ t, slotExecRecord r s = .next t ∧ StraightEffect s t := by
  cases r with
  | op i => exact slotExec_next i s
  | unsup => exact ⟨_, rfl, straight_diag _ (by decide)⟩
  | invalid => exact ⟨_, rfl, straight_diag _ (by decide)⟩

/-- An instruction that is no transfer is dispatched alike in and out of a delay slot. -/
theorem exec_of_not_transfer {i : Instr} (h : i.isTransfer = false) (s : State) : exec i s = slotExec i s := by
  cases i <;> first | rfl | exact absurd h (by simp [Instr.isTransfer])

/-- Every transfer is executed by the one handler (45_control_transfer.md R230). -/
theorem exec_of_transfer {i : Instr} (h : i.isTransfer = true) (s : State) : ∃ t, exec i s = transfer t s := by
  cases i <;> first | exact ⟨_, rfl⟩ | exact absurd h (by simp [Instr.isTransfer])

theorem transfer_nested {s : State} (h : s.inDelaySlot = true) (t : Transfer) :
    transfer t s = nestedTransfer s := by
  simp [transfer, h]

/-- What the delay slot's step can do when it answers a next state. -/
theorem slotStep_next_iff {s t : State} :
    slotStep s = .next t ↔ s.pc.toNat % 4 = 0 ∧ ∃ e u, s.prog[s.pc.toNat / 4]? = some e ∧
      slotExecRecord e.record (s.fetched e) = .next u ∧ StraightEffect (s.fetched e) u ∧ t = u.forceZero := by
  unfold slotStep
  constructor
  · intro h
    split at h
    · cases h
    · cases h
    · rename_i r v hf
      obtain ⟨ha, e, he, rfl, rfl⟩ := fetch_entry_iff.1 hf
      obtain ⟨u, hu, rfl⟩ := onNext_next_iff.1 h
      obtain ⟨u', hu', heff⟩ := slotExecRecord_next e.record (s.fetched e)
      obtain rfl : u = u' := by simpa [hu] using hu'
      exact ⟨ha, e, u, he, hu, heff, rfl⟩
  · rintro ⟨ha, e, u, he, hu, -, rfl⟩
    rw [fetch_entry_iff.2 ⟨ha, e, he, rfl, rfl⟩]
    dsimp only
    rw [hu]
    rfl

/-- A delay slot that can be fetched is executed and answers a next state. -/
theorem slotStep_ready {s : State} (ha : s.pc.toNat % 4 = 0) (hi : s.pc.toNat < 4 * s.prog.length) :
    ∃ t, slotStep s = .next t := by
  obtain ⟨e, he, -⟩ := fetch_of_ready ha hi
  obtain ⟨u, hu, heff⟩ := slotExecRecord_next e.record (s.fetched e)
  exact ⟨u.forceZero, slotStep_next_iff.2 ⟨ha, e, u, he, hu, heff, rfl⟩⟩

section
variable (s : State) (t : Transfer) (timing : LinkTiming) (pcE : Word)

@[simp] theorem link_pc : (s.link t timing pcE).pc = s.pc := by
  unfold State.link; split <;> rfl
@[simp] theorem link_inDelaySlot : (s.link t timing pcE).inDelaySlot = s.inDelaySlot := by
  unfold State.link; split <;> rfl
@[simp] theorem link_curIndex : (s.link t timing pcE).curIndex = s.curIndex := by
  unfold State.link; split <;> rfl
@[simp] theorem link_curLine : (s.link t timing pcE).curLine = s.curLine := by
  unfold State.link; split <;> rfl
@[simp] theorem link_mem : (s.link t timing pcE).mem = s.mem := by
  unfold State.link; split <;> rfl
@[simp] theorem link_prog : (s.link t timing pcE).prog = s.prog := by
  unfold State.link; split <;> rfl
@[simp] theorem link_diags : (s.link t timing pcE).diags = s.diags := by
  unfold State.link; split <;> rfl
@[simp] theorem link_linkTiming : (s.link t timing pcE).linkTiming = s.linkTiming := by
  unfold State.link; split <;> rfl

@[simp] theorem enterSlot_pc : (s.enterSlot t).pc = s.pc := link_pc ..
@[simp] theorem enterSlot_inDelaySlot : (s.enterSlot t).inDelaySlot = true := rfl
@[simp] theorem enterSlot_curIndex : (s.enterSlot t).curIndex = s.curIndex := link_curIndex ..
@[simp] theorem enterSlot_curLine : (s.enterSlot t).curLine = s.curLine := link_curLine ..
@[simp] theorem enterSlot_mem : (s.enterSlot t).mem = s.mem := link_mem ..
@[simp] theorem enterSlot_prog : (s.enterSlot t).prog = s.prog := link_prog ..
@[simp] theorem enterSlot_diags : (s.enterSlot t).diags = s.diags := link_diags ..
@[simp] theorem enterSlot_linkTiming : (s.enterSlot t).linkTiming = s.linkTiming := link_linkTiming ..
@[simp] theorem enterSlot_readReg (r : RegIdx) :
    (s.enterSlot t).readReg r = (s.link t .beforeDelaySlot s.pc).readReg r := rfl

@[simp] theorem leaveSlot_pc : (s.leaveSlot t pcE).pc = if t.taken then t.target else s.pc := rfl
@[simp] theorem leaveSlot_inDelaySlot : (s.leaveSlot t pcE).inDelaySlot = false := rfl
@[simp] theorem leaveSlot_curIndex : (s.leaveSlot t pcE).curIndex = s.curIndex := link_curIndex ..
@[simp] theorem leaveSlot_curLine : (s.leaveSlot t pcE).curLine = s.curLine := link_curLine ..
@[simp] theorem leaveSlot_mem : (s.leaveSlot t pcE).mem = s.mem := link_mem ..
@[simp] theorem leaveSlot_prog : (s.leaveSlot t pcE).prog = s.prog := link_prog ..
@[simp] theorem leaveSlot_diags : (s.leaveSlot t pcE).diags = s.diags := link_diags ..
@[simp] theorem leaveSlot_linkTiming : (s.leaveSlot t pcE).linkTiming = s.linkTiming := link_linkTiming ..
@[simp] theorem leaveSlot_readReg (r : RegIdx) :
    (s.leaveSlot t pcE).readReg r = (s.link t .afterDelaySlot pcE).readReg r := rfl

/-- What the link leaves in the registers (45_control_transfer.md R233, R242). -/
theorem link_readReg (r : RegIdx) :
    (s.link t timing pcE).readReg r =
      if t.links = true ∧ s.linkTiming = timing ∧ r = linkReg then linkValue pcE else s.readReg r := by
  unfold State.link
  by_cases h : (t.links && decide (s.linkTiming = timing)) = true
  · rw [if_pos h, readReg_writeReg]
    simp only [Bool.and_eq_true, decide_eq_true_eq] at h
    simp [h.1, h.2]
  · rw [if_neg h]
    simp only [Bool.and_eq_true, decide_eq_true_eq, not_and] at h
    rw [if_neg (fun e => h e.1 e.2.1)]

end

/-- What the transfer handler can do when it answers a next state: refuse a nested transfer with a
diagnostic, or run one delay-slot instruction between entering and leaving the slot. -/
theorem transfer_next_iff {s t : State} {x : Transfer} :
    transfer x s = .next t ↔
      (s.inDelaySlot = true ∧ t = s.diag .nestedTransfer) ∨
      (s.inDelaySlot = false ∧ ∃ u, slotStep (s.enterSlot x) = .next u ∧ t = u.leaveSlot x s.pc) := by
  unfold transfer nestedTransfer
  cases s.inDelaySlot
  · simp [onNext_next_iff]
  · simp [eq_comm (a := t)]

/-- A transfer whose delay slot can be fetched answers a next state. -/
theorem transfer_ready {s : State} (h : SlotReady s) (x : Transfer) :
    ∃ u, slotStep (s.enterSlot x) = .next u ∧ transfer x s = .next (u.leaveSlot x s.pc) := by
  obtain ⟨u, hu⟩ := slotStep_ready (s := s.enterSlot x) (by simpa using h.aligned) (by simpa using h.inside)
  exact ⟨u, hu, transfer_next_iff.2 (.inr ⟨h.normal, u, hu, rfl⟩)⟩

/-- What a top-level step can do when it answers a next state: nothing, halted; or execute the entry the pc
selects and force register 0. -/
theorem step_next_iff {s t : State} :
    step s = .next t ↔
      (s.halted = true ∧ t = s) ∨
      (s.pc.toNat % 4 = 0 ∧ ∃ e u, s.prog[s.pc.toNat / 4]? = some e ∧
        execRecord e.record (s.fetched e) = .next u ∧ t = u.forceZero) := by
  unfold step topStep
  constructor
  · intro h
    split at h
    · exact .inl ⟨fetch_pastEnd_iff.1 ‹_›, by simpa using h.symm⟩
    · cases h
    · rename_i r v hf
      obtain ⟨ha, e, he, rfl, rfl⟩ := fetch_entry_iff.1 hf
      obtain ⟨u, hu, rfl⟩ := onNext_next_iff.1 h
      exact .inr ⟨ha, e, u, he, hu, rfl⟩
  · rintro (⟨hh, rfl⟩ | ⟨ha, e, u, he, hu, rfl⟩)
    · rw [fetch_pastEnd_iff.2 hh]
    · rw [fetch_entry_iff.2 ⟨ha, e, he, rfl, rfl⟩]
      dsimp only
      rw [hu]
      rfl

/-! ## Dispatch on a record, and the ways a step faults -/

/-- In a delay slot the two dispatches agree on every instruction (45_control_transfer.md R231; log 18). -/
theorem slotExec_eq_exec {s : State} (h : s.inDelaySlot = true) (i : Instr) : slotExec i s = exec i s := by
  cases ht : i.isTransfer with
  | false => exact (exec_of_not_transfer ht s).symm
  | true =>
    obtain ⟨x, hx⟩ := exec_of_transfer ht s
    rw [hx, transfer_nested h]
    cases i <;> first | rfl | exact absurd ht (by simp [Instr.isTransfer])

/-- In a delay slot the two dispatches agree on every record. -/
theorem slotExecRecord_eq_execRecord {s : State} (h : s.inDelaySlot = true) (r : Record) :
    slotExecRecord r s = execRecord r s := by
  cases r with
  | op i => exact slotExec_eq_exec h i
  | unsup => rfl
  | invalid => rfl

/-- A record that is no transfer answers a next state in every state, and leaves control alone. -/
theorem execRecord_straight {r : Record} (h : r.isTransfer = false) (s : State) :
    ∃ t, execRecord r s = .next t ∧ StraightEffect s t := by
  obtain ⟨t, ht, he⟩ := slotExecRecord_next r s
  refine ⟨t, Eq.trans ?_ ht, he⟩
  cases r with
  | op i => exact exec_of_not_transfer h s
  | unsup => rfl
  | invalid => rfl

/-- A record that is a transfer is executed by the one handler. -/
theorem execRecord_of_transfer {r : Record} (h : r.isTransfer = true) (s : State) :
    ∃ x, execRecord r s = transfer x s := by
  cases r with
  | op i => exact exec_of_transfer h s
  | unsup => cases h
  | invalid => cases h

/-- What no record ever changes, or breaks. -/
theorem execRecord_keeps {r : Record} {s t : State} (h : execRecord r s = .next t) :
    SameInstance s t ∧ (s.mem.wf → t.mem.wf) ∧ (s.inDelaySlot = false → t.inDelaySlot = false) := by
  cases ht : r.isTransfer with
  | false =>
    obtain ⟨u, hu, he⟩ := execRecord_straight ht s
    obtain rfl : t = u := by simpa [h] using hu
    exact ⟨he.toSameInstance, he.mem, fun h => he.inDelaySlot ▸ h⟩
  | true =>
    obtain ⟨x, hx⟩ := execRecord_of_transfer ht s
    rcases transfer_next_iff.1 (hx ▸ h) with ⟨hs, rfl⟩ | ⟨hs, u, hu, rfl⟩
    · exact ⟨⟨rfl, rfl⟩, id, id⟩
    · obtain ⟨ha, e, v, he, hv, hef, rfl⟩ := slotStep_next_iff.1 hu
      exact ⟨⟨by simpa using hef.prog, by simpa using hef.linkTiming⟩,
        fun hm => by simpa using hef.mem (by simpa using hm), fun _ => rfl⟩

/-- The delay slot's step faults only where nothing can be fetched, and keeps the state as it was. -/
theorem slotStep_fault_cases {s : State} {f : Fault} (h : slotStep s = .fault f) :
    (s.halted = true ∧ f = .delaySlotPastEnd s) ∨
    (s.halted = false ∧ s.pc.toNat % 4 ≠ 0 ∧ f = .misalignedFetch s) := by
  unfold slotStep at h
  split at h
  · exact .inl ⟨fetch_pastEnd_iff.1 ‹_›, by simpa using h.symm⟩
  · have := fetch_misaligned_iff.1 ‹_›
    exact .inr ⟨this.1, this.2, by simpa using h.symm⟩
  · rename_i r v hf
    obtain ⟨u, hu, -⟩ := slotExecRecord_next r v
    rw [hu] at h
    cases h

/-- A step faults only at a misaligned pc, or in the delay slot of a transfer. -/
theorem step_fault_cases {s : State} {f : Fault} (h : step s = .fault f) :
    (s.halted = false ∧ s.pc.toNat % 4 ≠ 0 ∧ f = .misalignedFetch s) ∨
    (s.halted = false ∧ s.pc.toNat % 4 = 0 ∧ s.inDelaySlot = false ∧
      ∃ e x, s.prog[s.pc.toNat / 4]? = some e ∧ e.record.isTransfer = true ∧
        execRecord e.record (s.fetched e) = transfer x (s.fetched e) ∧
        slotStep ((s.fetched e).enterSlot x) = .fault f) := by
  unfold step topStep at h
  split at h
  · cases h
  · have := fetch_misaligned_iff.1 ‹_›
    exact .inl ⟨this.1, this.2, by simpa using h.symm⟩
  · rename_i r v hf
    have hh : s.halted = false := by
      rw [← Bool.not_eq_true, ← fetch_pastEnd_iff, hf]
      simp
    obtain ⟨ha, e, he, rfl, rfl⟩ := fetch_entry_iff.1 hf
    have hx := onNext_fault_iff.1 h
    cases ht : e.record.isTransfer with
    | false =>
      obtain ⟨t, ht', -⟩ := execRecord_straight ht (s.fetched e)
      rw [ht'] at hx
      cases hx
    | true =>
      obtain ⟨x, hx'⟩ := execRecord_of_transfer ht (s.fetched e)
      rw [hx', transfer] at hx
      split at hx
      · simp [nestedTransfer] at hx
      · rename_i hn
        exact .inr ⟨hh, ha, by simpa using hn, e, x, he, ht, hx', onNext_fault_iff.1 hx⟩

/-! ## The link register and `LINK_TIMING`, in a delay slot -/

/-- The nested step's dispatch neither reads nor writes the launch parameter. -/
theorem slotExecRecord_linkTiming {r : Record} {s t : State} (q : LinkTiming) (h : slotExecRecord r s = .next t) :
    slotExecRecord r { s with linkTiming := q } = .next { t with linkTiming := q } := by
  cases r with
  | unsup => cases h; rfl
  | invalid => cases h; rfl
  | op i =>
    simp only [slotExecRecord] at *
    cases i <;> simp only [slotExec, nestedTransfer, execNop, execAddiu, execAndi, execOri, execXori, execSlti,
      execSltiu, execLui, execAddu, execSubu, execAnd, execOr, execXor, execNor, execSlt, execSltu, execMovn,
      execMovz, execSll, execSrl, execSra, execSllv, execSrlv, execSrav, execLw, execLb, execLbu, execSw,
      execSb] at h ⊢ <;> cases h
    all_goals first
      | rfl
      | (simp only [State.immediate]; split <;> rfl)
      | (simp only [State.load]; split <;> simp_all [State.readReg, State.writeReg, State.diag])
      | (simp only [State.store]; split <;> simp_all [State.readReg, State.diag])
      | (split <;> simp_all [State.readReg, State.writeReg])

/-- A record that leaves register 31 alone in a delay slot can be executed before or after a write to it. -/
theorem slotExecRecord_writeLink {r : Record} {s t : State} (v : Word) (ha : avoidsLinkInSlot r = true)
    (h : slotExecRecord r s = .next t) :
    slotExecRecord r (s.writeReg linkReg v) = .next (t.writeReg linkReg v) := by
  cases r with
  | unsup => cases h; rfl
  | invalid => cases h; rfl
  | op i =>
    simp only [slotExecRecord] at *
    cases i <;> simp only [slotExec, nestedTransfer, execNop, execAddiu, execAndi, execOri, execXori, execSlti,
      execSltiu, execLui, execAddu, execSubu, execAnd, execOr, execXor, execNor, execSlt, execSltu, execMovn,
      execMovz, execSll, execSrl, execSra, execSllv, execSrlv, execSrav, execLw, execLb, execLbu, execSw,
      execSb] at h ⊢ <;> cases h
    all_goals simp [avoidsLinkInSlot, Instr.isTransfer, reads, writes, -List.contains_eq_mem] at ha
    all_goals try rfl
    all_goals simp only [eq_comm (a := linkReg)] at ha
    all_goals simp only [State.immediate, State.load, State.store, readReg_writeReg, ha, if_false, writeReg_mem]
    all_goals try simp only [show ∀ k, (s.writeReg linkReg v).diag k = (s.diag k).writeReg linkReg v from fun _ => rfl]
    all_goals try split
    all_goals first
      | rfl
      | (congr 1
         exact writeReg_comm _ _ _ (Ne.symm (by first | exact ha | exact ha.1 | exact ha.2 | exact ha.2.2)))

/-! ## Memory, in the nested step's dispatch -/

/-- A record that is no store leaves memory as it was (10_state.md R32). -/
theorem slotExecRecord_mem {r : Record} {s t : State} (hs : ∀ i, r = .op i → isStore i = false)
    (h : slotExecRecord r s = .next t) : t.mem = s.mem := by
  cases r with
  | unsup => cases h; rfl
  | invalid => cases h; rfl
  | op i =>
    have hi := hs i rfl
    simp only [slotExecRecord] at h
    cases i <;> simp only [slotExec, nestedTransfer, execNop, execAddiu, execAndi, execOri, execXori, execSlti,
      execSltiu, execLui, execAddu, execSubu, execAnd, execOr, execXor, execNor, execSlt, execSltu, execMovn,
      execMovz, execSll, execSrl, execSra, execSllv, execSrlv, execSrav, execLw, execLb, execLbu, execSw,
      execSb] at h <;> cases h
    all_goals first
      | (cases hi; done)
      | rfl
      | (simp only [State.immediate, State.load]; split <;> rfl)
      | (split <;> rfl)

end Sys2Proof.Machine
end

