-- ==== Sys2Proof/Laws/FrontEnd.lean ====
section
/-! SUPPORT. What the loader, the linker and the construction of an engine can do, said once. -/

namespace Sys2Proof.Machine

/-- The loader numbers its instruction lines with the source lines it read them from, in order (30_encoding.md R95). -/
theorem loadLines_lines (ts : List Text) : ∀ (n : Nat) (st : LoaderState), 0 < n →
    st.lines.Pairwise (fun a b => a.line < b.line) → (∀ l ∈ st.lines, 0 < l.line ∧ l.line < n) →
    (loadLines n ts st).lines.Pairwise (fun a b => a.line < b.line) ∧
      ∀ l ∈ (loadLines n ts st).lines, 0 < l.line := by
  induction ts with
  | nil => exact fun n st _ hp hl => ⟨hp, fun l h => (hl l h).1⟩
  | cons t ts ih =>
    intro n st hn hp hl
    have hl' : ∀ l ∈ st.lines, 0 < l.line ∧ l.line < n + 1 := fun l h => ⟨(hl l h).1, by have := (hl l h).2; omega⟩
    simp only [loadLines]
    unfold LoaderState.line
    dsimp only
    split
    · exact ih _ _ (by omega) hp hl'
    · split
      · unfold LoaderState.define
        split <;> exact ih _ _ (by omega) hp hl'
      · refine ih _ _ (by omega) (List.pairwise_append.2 ⟨hp, by simp, ?_⟩) ?_
        · rintro a ha b hb
          obtain rfl := List.mem_singleton.1 hb
          exact (hl a ha).2
        · intro l h
          rcases List.mem_append.1 h with h | h
          · exact hl' l h
          · obtain rfl := List.mem_singleton.1 h
            exact ⟨hn, Nat.lt_succ_self n⟩

/-- The lines of a loaded program are positive and strictly rising. -/
theorem load_lines (text : Text) :
    (load text).lines.Pairwise (fun a b => a.line < b.line) ∧ ∀ l ∈ (load text).lines, 0 < l.line :=
  loadLines_lines _ 1 _ (by omega) List.Pairwise.nil (by simp)

/-- One line of the program, decoded before the rest of them. -/
theorem decodeLines_cons_ok {labels : List (Text × Nat)} {k : Nat} {l : SourceLine} {ls : List SourceLine}
    {out : List Entry × List Diagnostic} :
    decodeLines labels k (l :: ls) = .ok out ↔ ∃ r kinds rest, decodeLine labels k l.text = .ok (r, kinds) ∧
      decodeLines labels (k + 1) ls = .ok rest ∧
      out = (⟨r, l.line⟩ :: rest.1, kinds.map (Diagnostic.mk l.line) ++ rest.2) := by
  rw [decodeLines]
  cases decodeLine labels k l.text with
  | error e => simp
  | ok p =>
    obtain ⟨r, kinds⟩ := p
    cases decodeLines labels (k + 1) ls with
    | error e => simp [Except.map]
    | ok rest => simp [Except.map, eq_comm]

/-- Each entry has the line it was decoded from. -/
theorem decodeLines_lines {labels : List (Text × Nat)} {ls : List SourceLine} :
    ∀ {k : Nat} {out : List Entry × List Diagnostic}, decodeLines labels k ls = .ok out →
      out.1.map Entry.line = ls.map SourceLine.line := by
  induction ls with
  | nil =>
    intro k out h
    obtain rfl : ([], []) = out := by simpa [decodeLines] using h
    rfl
  | cons l ls ih =>
    intro k out h
    obtain ⟨r, kinds, rest, -, hr, rfl⟩ := decodeLines_cons_ok.1 h
    simp [ih hr]

/-- What the front end answers for a program it admits. -/
theorem frontEnd_ok_iff {text : Text} {out : List Entry × List Diagnostic} :
    frontEnd text = .ok out ↔ (load text).lines.length ≤ nMax ∧
      ∃ entries linked, decodeLines (load text).labels 0 (load text).lines = .ok (entries, linked) ∧
        out = (entries, (load text).diags ++ linked) := by
  unfold frontEnd
  dsimp only
  by_cases hn : nMax < (load text).lines.length
  · rw [if_pos hn]
    simp
    intro h
    omega
  · rw [if_neg hn]
    cases decodeLines (load text).labels 0 (load text).lines with
    | error e => simp [Except.map]
    | ok p => simp [Except.map, Nat.not_lt.1 hn, eq_comm, Prod.ext_iff]

/-- The front end's program store is well formed (10_state.md R26). -/
theorem frontEnd_wellFormed {text : Text} {out : List Entry × List Diagnostic} (h : frontEnd text = .ok out) :
    wellFormedProgram out.1 := by
  obtain ⟨hn, entries, linked, hd, rfl⟩ := frontEnd_ok_iff.1 h
  have hl := decodeLines_lines hd
  obtain ⟨hp, hpos⟩ := load_lines text
  refine ⟨?_, ?_, ?_⟩
  · have h : entries.length = (load text).lines.length := by simpa using congrArg List.length hl
    exact h ▸ hn
  · intro e he
    have hm : e.line ∈ (load text).lines.map SourceLine.line := hl ▸ List.mem_map_of_mem he
    obtain ⟨l, hl', hline⟩ := List.mem_map.1 hm
    exact hline ▸ hpos l hl'
  · have : (entries.map Entry.line).Pairwise (· < ·) := hl ▸ List.pairwise_map.2 hp
    exact List.pairwise_map.1 this

/-- What construction answers for a program the front end admits (10_state.md R35, 70_reset_and_hazards.md R330). -/
theorem construct_ok_iff {p : LaunchParams} {text : Text} {s : State} :
    State.construct p text = .ok s ↔ ∃ out, frontEnd text = .ok out ∧ s = State.launch p out.1 out.2 := by
  unfold State.construct
  cases frontEnd text with
  | error e => simp [Except.map]
  | ok out => simp [Except.map, eq_comm]

end Sys2Proof.Machine
end

