-- ==== Sys2Proof/Laws/PerInstr.lean ====
section
/-! SUPPORT. A statement made of each instruction as syntax: its reference word hits its own row of the opcode table, and the row's fields give the instruction back. -/

set_option Elab.async false

namespace Sys2Proof.Laws.EncodeHitsRow

/-- The instruction's row is in the table under its mnemonic, its word has the row's fixed bits, and, where no
literal overflowed, the row builds the instruction from the word (30_encoding.md R112, R113). -/
def Statement (i : Instr) : Prop :=
  ∃ r ∈ opcodeTable, r.mnemonic = i.mnemonic ∧ r.hits (encode i) = true ∧ (i.ovf = false → r.build (encode i) = i)

/-- The table holds a row at an index. -/
theorem row_mem {k : Nat} {r : OpcodeRow} (h : opcodeTable[k]? = some r) : r ∈ opcodeTable :=
  List.mem_of_getElem? h

theorem nop : Statement .nop := by
  refine ⟨_, row_mem (k := 0) rfl, rfl, ?_, ?_⟩
  · decide
  · exact fun _ => rfl

theorem sll (rd : RegIdx) (rt : RegIdx) (sa : ShAmt) : Statement (.sll rd rt sa) := by
  refine ⟨_, row_mem (k := 1) rfl, rfl, ?_, ?_⟩
  · simp only [OpcodeRow.hits, encode, wordR_mask_shift, beq_iff_eq]; decide
  · intro _; simp [encode]

theorem srl (rd : RegIdx) (rt : RegIdx) (sa : ShAmt) : Statement (.srl rd rt sa) := by
  refine ⟨_, row_mem (k := 2) rfl, rfl, ?_, ?_⟩
  · simp only [OpcodeRow.hits, encode, wordR_mask_shift, beq_iff_eq]; decide
  · intro _; simp [encode]

theorem sra (rd : RegIdx) (rt : RegIdx) (sa : ShAmt) : Statement (.sra rd rt sa) := by
  refine ⟨_, row_mem (k := 3) rfl, rfl, ?_, ?_⟩
  · simp only [OpcodeRow.hits, encode, wordR_mask_shift, beq_iff_eq]; decide
  · intro _; simp [encode]

theorem sllv (rd : RegIdx) (rt : RegIdx) (rs : RegIdx) : Statement (.sllv rd rt rs) := by
  refine ⟨_, row_mem (k := 4) rfl, rfl, ?_, ?_⟩
  · simp only [OpcodeRow.hits, encode, wordR_mask_regs, beq_iff_eq]; decide
  · intro _; simp [encode]

theorem srlv (rd : RegIdx) (rt : RegIdx) (rs : RegIdx) : Statement (.srlv rd rt rs) := by
  refine ⟨_, row_mem (k := 5) rfl, rfl, ?_, ?_⟩
  · simp only [OpcodeRow.hits, encode, wordR_mask_regs, beq_iff_eq]; decide
  · intro _; simp [encode]

theorem srav (rd : RegIdx) (rt : RegIdx) (rs : RegIdx) : Statement (.srav rd rt rs) := by
  refine ⟨_, row_mem (k := 6) rfl, rfl, ?_, ?_⟩
  · simp only [OpcodeRow.hits, encode, wordR_mask_regs, beq_iff_eq]; decide
  · intro _; simp [encode]

theorem jr (rs : RegIdx) : Statement (.jr rs) := by
  refine ⟨_, row_mem (k := 7) rfl, rfl, ?_, ?_⟩
  · simp only [OpcodeRow.hits, encode, wordR_mask_jump, beq_iff_eq]; decide
  · intro _; simp [encode]

theorem jalr (rs : RegIdx) : Statement (.jalr rs) := by
  refine ⟨_, row_mem (k := 8) rfl, rfl, ?_, ?_⟩
  · simp only [OpcodeRow.hits, encode, wordR_mask_jump, beq_iff_eq]; decide
  · intro _; simp [encode]

theorem movz (rd : RegIdx) (rs : RegIdx) (rt : RegIdx) : Statement (.movz rd rs rt) := by
  refine ⟨_, row_mem (k := 9) rfl, rfl, ?_, ?_⟩
  · simp only [OpcodeRow.hits, encode, wordR_mask_regs, beq_iff_eq]; decide
  · intro _; simp [encode]

theorem movn (rd : RegIdx) (rs : RegIdx) (rt : RegIdx) : Statement (.movn rd rs rt) := by
  refine ⟨_, row_mem (k := 10) rfl, rfl, ?_, ?_⟩
  · simp only [OpcodeRow.hits, encode, wordR_mask_regs, beq_iff_eq]; decide
  · intro _; simp [encode]

theorem addu (rd : RegIdx) (rs : RegIdx) (rt : RegIdx) : Statement (.addu rd rs rt) := by
  refine ⟨_, row_mem (k := 11) rfl, rfl, ?_, ?_⟩
  · simp only [OpcodeRow.hits, encode, wordR_mask_regs, beq_iff_eq]; decide
  · intro _; simp [encode]

theorem subu (rd : RegIdx) (rs : RegIdx) (rt : RegIdx) : Statement (.subu rd rs rt) := by
  refine ⟨_, row_mem (k := 12) rfl, rfl, ?_, ?_⟩
  · simp only [OpcodeRow.hits, encode, wordR_mask_regs, beq_iff_eq]; decide
  · intro _; simp [encode]

theorem and (rd : RegIdx) (rs : RegIdx) (rt : RegIdx) : Statement (.and rd rs rt) := by
  refine ⟨_, row_mem (k := 13) rfl, rfl, ?_, ?_⟩
  · simp only [OpcodeRow.hits, encode, wordR_mask_regs, beq_iff_eq]; decide
  · intro _; simp [encode]

theorem or (rd : RegIdx) (rs : RegIdx) (rt : RegIdx) : Statement (.or rd rs rt) := by
  refine ⟨_, row_mem (k := 14) rfl, rfl, ?_, ?_⟩
  · simp only [OpcodeRow.hits, encode, wordR_mask_regs, beq_iff_eq]; decide
  · intro _; simp [encode]

theorem xor (rd : RegIdx) (rs : RegIdx) (rt : RegIdx) : Statement (.xor rd rs rt) := by
  refine ⟨_, row_mem (k := 15) rfl, rfl, ?_, ?_⟩
  · simp only [OpcodeRow.hits, encode, wordR_mask_regs, beq_iff_eq]; decide
  · intro _; simp [encode]

theorem nor (rd : RegIdx) (rs : RegIdx) (rt : RegIdx) : Statement (.nor rd rs rt) := by
  refine ⟨_, row_mem (k := 16) rfl, rfl, ?_, ?_⟩
  · simp only [OpcodeRow.hits, encode, wordR_mask_regs, beq_iff_eq]; decide
  · intro _; simp [encode]

theorem slt (rd : RegIdx) (rs : RegIdx) (rt : RegIdx) : Statement (.slt rd rs rt) := by
  refine ⟨_, row_mem (k := 17) rfl, rfl, ?_, ?_⟩
  · simp only [OpcodeRow.hits, encode, wordR_mask_regs, beq_iff_eq]; decide
  · intro _; simp [encode]

theorem sltu (rd : RegIdx) (rs : RegIdx) (rt : RegIdx) : Statement (.sltu rd rs rt) := by
  refine ⟨_, row_mem (k := 18) rfl, rfl, ?_, ?_⟩
  · simp only [OpcodeRow.hits, encode, wordR_mask_regs, beq_iff_eq]; decide
  · intro _; simp [encode]

theorem bltz (rs : RegIdx) (off : Field16) : Statement (.bltz rs off) := by
  refine ⟨_, row_mem (k := 19) rfl, rfl, ?_, ?_⟩
  · simp only [OpcodeRow.hits, encode, wordI_mask_branch, beq_iff_eq]; decide
  · intro _; simp [encode]

theorem bgez (rs : RegIdx) (off : Field16) : Statement (.bgez rs off) := by
  refine ⟨_, row_mem (k := 20) rfl, rfl, ?_, ?_⟩
  · simp only [OpcodeRow.hits, encode, wordI_mask_branch, beq_iff_eq]; decide
  · intro _; simp [encode]

theorem j (index : Index26) : Statement (.j index) := by
  refine ⟨_, row_mem (k := 21) rfl, rfl, ?_, ?_⟩
  · simp only [OpcodeRow.hits, encode, wordJ_mask, beq_iff_eq]; decide
  · intro _; simp [encode]

theorem jal (index : Index26) : Statement (.jal index) := by
  refine ⟨_, row_mem (k := 22) rfl, rfl, ?_, ?_⟩
  · simp only [OpcodeRow.hits, encode, wordJ_mask, beq_iff_eq]; decide
  · intro _; simp [encode]

theorem beq (rs : RegIdx) (rt : RegIdx) (off : Field16) : Statement (.beq rs rt off) := by
  refine ⟨_, row_mem (k := 23) rfl, rfl, ?_, ?_⟩
  · simp only [OpcodeRow.hits, encode, wordI_mask_opcode, beq_iff_eq]; decide
  · intro _; simp [encode]

theorem bne (rs : RegIdx) (rt : RegIdx) (off : Field16) : Statement (.bne rs rt off) := by
  refine ⟨_, row_mem (k := 24) rfl, rfl, ?_, ?_⟩
  · simp only [OpcodeRow.hits, encode, wordI_mask_opcode, beq_iff_eq]; decide
  · intro _; simp [encode]

theorem blez (rs : RegIdx) (off : Field16) : Statement (.blez rs off) := by
  refine ⟨_, row_mem (k := 25) rfl, rfl, ?_, ?_⟩
  · simp only [OpcodeRow.hits, encode, wordI_mask_branch, beq_iff_eq]; decide
  · intro _; simp [encode]

theorem bgtz (rs : RegIdx) (off : Field16) : Statement (.bgtz rs off) := by
  refine ⟨_, row_mem (k := 26) rfl, rfl, ?_, ?_⟩
  · simp only [OpcodeRow.hits, encode, wordI_mask_branch, beq_iff_eq]; decide
  · intro _; simp [encode]

theorem addiu (rt : RegIdx) (rs : RegIdx) (imm : Field16) (ovf : Bool) : Statement (.addiu rt rs imm ovf) := by
  refine ⟨_, row_mem (k := 27) rfl, rfl, ?_, ?_⟩
  · simp only [OpcodeRow.hits, encode, wordI_mask_opcode, beq_iff_eq]; decide
  · intro h; obtain rfl : ovf = false := h; simp [encode]

theorem slti (rt : RegIdx) (rs : RegIdx) (imm : Field16) (ovf : Bool) : Statement (.slti rt rs imm ovf) := by
  refine ⟨_, row_mem (k := 28) rfl, rfl, ?_, ?_⟩
  · simp only [OpcodeRow.hits, encode, wordI_mask_opcode, beq_iff_eq]; decide
  · intro h; obtain rfl : ovf = false := h; simp [encode]

theorem sltiu (rt : RegIdx) (rs : RegIdx) (imm : Field16) (ovf : Bool) : Statement (.sltiu rt rs imm ovf) := by
  refine ⟨_, row_mem (k := 29) rfl, rfl, ?_, ?_⟩
  · simp only [OpcodeRow.hits, encode, wordI_mask_opcode, beq_iff_eq]; decide
  · intro h; obtain rfl : ovf = false := h; simp [encode]

theorem andi (rt : RegIdx) (rs : RegIdx) (imm : Field16) (ovf : Bool) : Statement (.andi rt rs imm ovf) := by
  refine ⟨_, row_mem (k := 30) rfl, rfl, ?_, ?_⟩
  · simp only [OpcodeRow.hits, encode, wordI_mask_opcode, beq_iff_eq]; decide
  · intro h; obtain rfl : ovf = false := h; simp [encode]

theorem ori (rt : RegIdx) (rs : RegIdx) (imm : Field16) (ovf : Bool) : Statement (.ori rt rs imm ovf) := by
  refine ⟨_, row_mem (k := 31) rfl, rfl, ?_, ?_⟩
  · simp only [OpcodeRow.hits, encode, wordI_mask_opcode, beq_iff_eq]; decide
  · intro h; obtain rfl : ovf = false := h; simp [encode]

theorem xori (rt : RegIdx) (rs : RegIdx) (imm : Field16) (ovf : Bool) : Statement (.xori rt rs imm ovf) := by
  refine ⟨_, row_mem (k := 32) rfl, rfl, ?_, ?_⟩
  · simp only [OpcodeRow.hits, encode, wordI_mask_opcode, beq_iff_eq]; decide
  · intro h; obtain rfl : ovf = false := h; simp [encode]

theorem lui (rt : RegIdx) (imm : Field16) (ovf : Bool) : Statement (.lui rt imm ovf) := by
  refine ⟨_, row_mem (k := 33) rfl, rfl, ?_, ?_⟩
  · simp only [OpcodeRow.hits, encode, wordI_mask_upper, beq_iff_eq]; decide
  · intro h; obtain rfl : ovf = false := h; simp [encode]

theorem lb (rt : RegIdx) (base : RegIdx) (off : Field16) : Statement (.lb rt base off) := by
  refine ⟨_, row_mem (k := 34) rfl, rfl, ?_, ?_⟩
  · simp only [OpcodeRow.hits, encode, wordI_mask_opcode, beq_iff_eq]; decide
  · intro _; simp [encode]

theorem lw (rt : RegIdx) (base : RegIdx) (off : Field16) : Statement (.lw rt base off) := by
  refine ⟨_, row_mem (k := 35) rfl, rfl, ?_, ?_⟩
  · simp only [OpcodeRow.hits, encode, wordI_mask_opcode, beq_iff_eq]; decide
  · intro _; simp [encode]

theorem lbu (rt : RegIdx) (base : RegIdx) (off : Field16) : Statement (.lbu rt base off) := by
  refine ⟨_, row_mem (k := 36) rfl, rfl, ?_, ?_⟩
  · simp only [OpcodeRow.hits, encode, wordI_mask_opcode, beq_iff_eq]; decide
  · intro _; simp [encode]

theorem sb (rt : RegIdx) (base : RegIdx) (off : Field16) : Statement (.sb rt base off) := by
  refine ⟨_, row_mem (k := 37) rfl, rfl, ?_, ?_⟩
  · simp only [OpcodeRow.hits, encode, wordI_mask_opcode, beq_iff_eq]; decide
  · intro _; simp [encode]

theorem sw (rt : RegIdx) (base : RegIdx) (off : Field16) : Statement (.sw rt base off) := by
  refine ⟨_, row_mem (k := 38) rfl, rfl, ?_, ?_⟩
  · simp only [OpcodeRow.hits, encode, wordI_mask_opcode, beq_iff_eq]; decide
  · intro _; simp [encode]

end Sys2Proof.Laws.EncodeHitsRow
end

