-- ==== Sys2Proof/Tests/Slice0.lean ====
section
/-! SUPPORT. Tests of the model, and a witness for each statement that has hypotheses. Expected values are those of 95_test_vectors.md, or worked by hand from the rule named. -/

set_option Elab.async false

namespace Sys2Proof.Tests

open Sys2Proof.Machine

/-! ## Helpers -/

/-- A state with the given records, on lines 1, 2, …, registers and memory cells, by the convention of 95_test_vectors.md. -/
def machine (prog : List Record) (regs : List (RegIdx × Word)) (cells : List Host.Cell) : State :=
  regs.foldl (fun s p => s.writeReg p.1 p.2)
    { State.reset with prog := prog.zipIdx.map (fun p => ⟨p.1, p.2 + 1⟩), mem := Memory.ofCells cells }

/-- The state a result holds: the next one, or the one a fault keeps. -/
def stateOf : Result → State
  | .next s => s
  | .fault (.delaySlotPastEnd s) => s
  | .fault (.misalignedFetch s) => s
  | .refused _ => State.reset

/-- Whether a result is a next state. -/
def isNext : Result → Bool
  | .next _ => true
  | .fault _ => false
  | .refused _ => false

theorem next_of_isNext {r : Result} (h : isNext r = true) : r = .next (stateOf r) := by
  cases r <;> first | rfl | cases h

/-- Which fault a result is: 1 for DelaySlotPastEnd, 2 for MisalignedFetch, 0 for none. -/
def faultOf : Result → Nat
  | .next _ => 0
  | .fault (.delaySlotPastEnd _) => 1
  | .fault (.misalignedFetch _) => 2
  | .refused _ => 3

/-- The state after one step of the one-instruction program. -/
def one (i : Instr) (regs : List (RegIdx × Word)) (cells : List Host.Cell) : State :=
  stateOf (step (machine [.op i] regs cells))

/-- A register, the kinds of the diagnostics stream, and the pc. -/
def seen (s : State) (r : RegIdx) : Word × List DiagKind × Word := (s.readReg r, s.diags.map Diagnostic.kind, s.pc)

/-- Four bytes of memory, in increasing address order. -/
def bytes (s : State) (a : Nat) : List Byte := (List.range 4).map (fun k => s.mem.read (a + k))

/-- An engine built from a program text, with the launch parameters of `State.reset`. -/
def boot (text : String) : State :=
  match State.construct LaunchParams.default text.toList with
  | .ok s => s
  | .error _ => State.reset

/-- Why a program text is refused, if it is. -/
def refusalOf (text : String) : Option RefusedFor :=
  match frontEnd text.toList with
  | .ok _ => none
  | .error r => some r.reason

theorem boot_ok {text : String} (h : refusalOf text = none) :
    State.construct LaunchParams.default text.toList = .ok (boot text) := by
  unfold boot
  unfold refusalOf at h
  unfold State.construct
  cases hf : frontEnd text.toList with
  | ok out => rfl
  | error r => rw [hf] at h; cases h

/-- The state after `n` steps, or at the first fault. -/
def steps : Nat → State → State
  | 0, s => s
  | n + 1, s => steps n (stateOf (step s))

/-! ## Syntax and well-formedness -/

/-- An overflowed literal has no reference word. -/
theorem test_ill_formed_ovf : Instr.wellFormed (.addiu 8#5 9#5 0#16 true) = false := by decide

/-- The word of `sll $0, $0, 0` is the word of `nop`. -/
theorem test_ill_formed_sll_zero : Instr.wellFormed (.sll 0#5 0#5 0#5) = false := by decide

theorem test_well_formed_sll : Instr.wellFormed (.sll 0#5 0#5 1#5) = true := by decide

theorem test_ill_formed_line_zero : ¬ wellFormedProgram [⟨.op .nop, 0⟩] := by decide

theorem test_ill_formed_lines_fall : ¬ wellFormedProgram [⟨.op .nop, 2⟩, ⟨.op .nop, 2⟩] := by decide

theorem test_ill_formed_too_long (e : Entry) : ¬ wellFormedProgram (List.replicate (nMax + 1) e) := by
  intro h
  have h := h.1
  rw [List.length_replicate] at h
  omega

theorem test_well_formed_program : wellFormedProgram [⟨.op .nop, 1⟩, ⟨.unsup, 3⟩, ⟨.invalid, 4⟩] := by decide

/-! ## Words written out from the encodings of 30_encoding.md R112 -/

/-- V-ENC-16. -/
theorem test_decode_nop :
    decodeWord 0b000000_00000_00000_00000_00000_000000#32 = .record (.op .nop) := by decide

/-- `$t0`, `$t1`, amount 4 (V-ENC-9 for `sll`). -/
theorem test_decode_shift_imm :
    decodeWord 0b000000_00000_01001_01000_00100_000000#32 = .record (.op (.sll 8#5 9#5 4#5)) ∧
    decodeWord 0b000000_00000_01001_01000_00100_000010#32 = .record (.op (.srl 8#5 9#5 4#5)) ∧
    decodeWord 0b000000_00000_01001_01000_00100_000011#32 = .record (.op (.sra 8#5 9#5 4#5)) := by decide

/-- rd `$t0`, rt `$t1`, rs `$t2` (V-ENC-10 for `sllv`). -/
theorem test_decode_shift_reg :
    decodeWord 0b000000_01010_01001_01000_00000_000100#32 = .record (.op (.sllv 8#5 9#5 10#5)) ∧
    decodeWord 0b000000_01010_01001_01000_00000_000110#32 = .record (.op (.srlv 8#5 9#5 10#5)) ∧
    decodeWord 0b000000_01010_01001_01000_00000_000111#32 = .record (.op (.srav 8#5 9#5 10#5)) := by decide

/-- V-ENC-7, V-ENC-8. -/
theorem test_decode_jump_reg :
    decodeWord 0b000000_11111_00000_00000_00000_001000#32 = .record (.op (.jr 31#5)) ∧
    decodeWord 0b000000_01001_00000_11111_00000_001001#32 = .record (.op (.jalr 9#5)) := by decide

/-- rd `$t0`, rs `$t1`, rt `$t2` (V-ENC-11 for `movn`). -/
theorem test_decode_cond_move :
    decodeWord 0b000000_01001_01010_01000_00000_001010#32 = .record (.op (.movz 8#5 9#5 10#5)) ∧
    decodeWord 0b000000_01001_01010_01000_00000_001011#32 = .record (.op (.movn 8#5 9#5 10#5)) := by decide

/-- rd `$t0`, rs `$t1`, rt `$t2` (V-ENC-12 for `sltu`). -/
theorem test_decode_reg_alu :
    decodeWord 0b000000_01001_01010_01000_00000_100001#32 = .record (.op (.addu 8#5 9#5 10#5)) ∧
    decodeWord 0b000000_01001_01010_01000_00000_100011#32 = .record (.op (.subu 8#5 9#5 10#5)) ∧
    decodeWord 0b000000_01001_01010_01000_00000_100100#32 = .record (.op (.and 8#5 9#5 10#5)) ∧
    decodeWord 0b000000_01001_01010_01000_00000_100101#32 = .record (.op (.or 8#5 9#5 10#5)) ∧
    decodeWord 0b000000_01001_01010_01000_00000_100110#32 = .record (.op (.xor 8#5 9#5 10#5)) ∧
    decodeWord 0b000000_01001_01010_01000_00000_100111#32 = .record (.op (.nor 8#5 9#5 10#5)) ∧
    decodeWord 0b000000_01001_01010_01000_00000_101010#32 = .record (.op (.slt 8#5 9#5 10#5)) ∧
    decodeWord 0b000000_01001_01010_01000_00000_101011#32 = .record (.op (.sltu 8#5 9#5 10#5)) := by decide

/-- V-ENC-5, V-ENC-6. -/
theorem test_decode_jump :
    decodeWord 0b000010_00000000000000000000000010#32 = .record (.op (.j 2#26)) ∧
    decodeWord 0b000011_00000000000000000000000010#32 = .record (.op (.jal 2#26)) := by decide

/-- V-ENC-4, V-ENC-13, V-ENC-14, V-ENC-15 for `beq`, `bltz`, `bgez`, `bne`. -/
theorem test_decode_branch :
    decodeWord 0b000001_01000_00000_0000000000000000#32 = .record (.op (.bltz 8#5 0#16)) ∧
    decodeWord 0b000001_01000_00001_0000000000000000#32 = .record (.op (.bgez 8#5 0#16)) ∧
    decodeWord 0b000100_00000_00000_0000000000000001#32 = .record (.op (.beq 0#5 0#5 1#16)) ∧
    decodeWord 0b000101_01000_00000_0000000000000000#32 = .record (.op (.bne 8#5 0#5 0#16)) ∧
    decodeWord 0b000110_01000_00000_0000000000000011#32 = .record (.op (.blez 8#5 3#16)) ∧
    decodeWord 0b000111_01000_00000_1111111111111110#32 = .record (.op (.bgtz 8#5 0xFFFE#16)) := by decide

/-- rt `$t0`, rs `$t1` (V-ENC-1, V-ENC-2 for `addiu`, `lui`). -/
theorem test_decode_imm_alu :
    decodeWord 0b001001_01001_01000_1111111111111111#32 = .record (.op (.addiu 8#5 9#5 0xFFFF#16 false)) ∧
    decodeWord 0b001010_01001_01000_1111111111111111#32 = .record (.op (.slti 8#5 9#5 0xFFFF#16 false)) ∧
    decodeWord 0b001011_01001_01000_1111111111111111#32 = .record (.op (.sltiu 8#5 9#5 0xFFFF#16 false)) ∧
    decodeWord 0b001100_01001_01000_1111111111111111#32 = .record (.op (.andi 8#5 9#5 0xFFFF#16 false)) ∧
    decodeWord 0b001101_01001_01000_1111111111111111#32 = .record (.op (.ori 8#5 9#5 0xFFFF#16 false)) ∧
    decodeWord 0b001110_01001_01000_1111111111111111#32 = .record (.op (.xori 8#5 9#5 0xFFFF#16 false)) ∧
    decodeWord 0b001111_00000_01000_0001001000110100#32 = .record (.op (.lui 8#5 0x1234#16 false)) := by decide

/-- rt `$t0`, base `$t1` (V-ENC-3 for `sw`). -/
theorem test_decode_load_store :
    decodeWord 0b100000_01001_01000_0000000000000100#32 = .record (.op (.lb 8#5 9#5 4#16)) ∧
    decodeWord 0b100011_01001_01000_0000000000000100#32 = .record (.op (.lw 8#5 9#5 4#16)) ∧
    decodeWord 0b100100_01001_01000_0000000000000100#32 = .record (.op (.lbu 8#5 9#5 4#16)) ∧
    decodeWord 0b101000_01001_01000_0000000000000100#32 = .record (.op (.sb 8#5 9#5 4#16)) ∧
    decodeWord 0b101011_01001_01000_0000000000000100#32 = .record (.op (.sw 8#5 9#5 4#16)) := by decide

/-- V-ENC-17, and a word with bits in `lui`'s fixed field. -/
theorem test_decode_unsup :
    decodeWord 0x00000020#32 = .record .unsup ∧
    decodeWord 0b001111_00001_01000_0001001000110100#32 = .record .unsup := by decide

/-- V-ENC-18. -/
theorem test_decode_refused :
    decodeWord 0x01204009#32 = .refused .jalrLinksElsewhere := by decide

/-- A word's bits above `nbits` are not its own. -/
theorem test_decode_table_word : decodeTableWord 32 0x03E00008 = some (.jr 31#5) ∧ decodeTableWord 8 0xFF21 = some (.addu 0#5 0#5 0#5) := by
  decide

/-- The words of program P1 (95_test_vectors.md 3). -/
theorem test_encode_p1 : encode (.beq 0#5 0#5 1#16) = 0x10000001#32 ∧ encode (.addiu 8#5 8#5 5#16 false) = 0x25080005#32 := by
  decide

/-! ## Instructions (95_test_vectors.md 2.1 to 2.5): one step of a one-line program -/

/-- V-IA-1. -/
theorem test_addiu_wraps :
    seen (one (.addiu 8#5 9#5 0x0001#16 false) [(9#5, 0x7FFFFFFF#32)] []) 8#5 =
      (0x80000000#32, [], 4#32) := by decide

/-- V-IA-5. -/
theorem test_addiu_overflows_literal :
    seen (one (.addiu 8#5 9#5 0x0001#16 true) [(9#5, 0x00000005#32)] []) 8#5 =
      (0x00000006#32, [.immediateOverflow], 4#32) := by decide

/-- V-IA-9. -/
theorem test_andi_zero_extends :
    seen (one (.andi 8#5 9#5 0xFFFF#16 false) [(9#5, 0xDEADBEEF#32)] []) 8#5 =
      (0x0000BEEF#32, [], 4#32) := by decide

/-- V-IA-11. -/
theorem test_ori_zero_extends :
    seen (one (.ori 8#5 9#5 0x8000#16 false) [(9#5, 0x12340000#32)] []) 8#5 =
      (0x12348000#32, [], 4#32) := by decide

/-- V-IA-13. -/
theorem test_xori_zero_extends :
    seen (one (.xori 8#5 9#5 0xFFFF#16 false) [(9#5, 0xFFFFFFFF#32)] []) 8#5 =
      (0xFFFF0000#32, [], 4#32) := by decide

/-- V-IA-15. -/
theorem test_slti_signed :
    seen (one (.slti 8#5 9#5 0x0000#16 false) [(9#5, 0x80000000#32)] []) 8#5 =
      (0x00000001#32, [], 4#32) := by decide

/-- V-IA-16. -/
theorem test_slti_sign_extends :
    seen (one (.slti 8#5 9#5 0x9C40#16 false) [(9#5, 0x00000000#32)] []) 8#5 =
      (0x00000000#32, [], 4#32) := by decide

/-- V-IA-22. -/
theorem test_sltiu_sign_extends :
    seen (one (.sltiu 8#5 9#5 0x8000#16 false) [(9#5, 0x7FFFFFFF#32)] []) 8#5 =
      (0x00000001#32, [], 4#32) := by decide

/-- V-IA-20. -/
theorem test_sltiu_equal :
    seen (one (.sltiu 8#5 9#5 0xFFFF#16 false) [(9#5, 0xFFFFFFFF#32)] []) 8#5 =
      (0x00000000#32, [], 4#32) := by decide

/-- V-IA-24. -/
theorem test_lui_upper :
    seen (one (.lui 8#5 0x8000#16 false) [] []) 8#5 =
      (0x80000000#32, [], 4#32) := by decide

/-- V-IA-25. -/
theorem test_lui_overflows_literal :
    seen (one (.lui 8#5 0x0000#16 true) [(8#5, 0x00000007#32)] []) 8#5 =
      (0x00000000#32, [.immediateOverflow], 4#32) := by decide

/-- V-RA-1. -/
theorem test_addu_wraps :
    seen (one (.addu 8#5 9#5 10#5) [(9#5, 0xFFFFFFFF#32), (10#5, 0x00000001#32)] []) 8#5 =
      (0x00000000#32, [], 4#32) := by decide

/-- V-RA-3. -/
theorem test_addu_source_is_destination :
    seen (one (.addu 8#5 8#5 8#5) [(8#5, 0x40000000#32)] []) 8#5 =
      (0x80000000#32, [], 4#32) := by decide

/-- V-RA-5. -/
theorem test_subu_order :
    seen (one (.subu 8#5 9#5 10#5) [(9#5, 0x80000000#32), (10#5, 0x00000001#32)] []) 8#5 =
      (0x7FFFFFFF#32, [], 4#32) := by decide

/-- V-RA-8. -/
theorem test_and :
    seen (one (.and 8#5 9#5 10#5) [(9#5, 0xFF00FF00#32), (10#5, 0x0F0F0F0F#32)] []) 8#5 =
      (0x0F000F00#32, [], 4#32) := by decide

/-- V-RA-10. -/
theorem test_or :
    seen (one (.or 8#5 9#5 10#5) [(9#5, 0xFF00FF00#32), (10#5, 0x0F0F0F0F#32)] []) 8#5 =
      (0xFF0FFF0F#32, [], 4#32) := by decide

/-- V-RA-12. -/
theorem test_xor :
    seen (one (.xor 8#5 9#5 10#5) [(9#5, 0xFF00FF00#32), (10#5, 0x0F0F0F0F#32)] []) 8#5 =
      (0xF00FF00F#32, [], 4#32) := by decide

/-- V-RA-14. -/
theorem test_nor :
    seen (one (.nor 8#5 9#5 10#5) [(9#5, 0xFF00FF00#32), (10#5, 0x0F0F0F0F#32)] []) 8#5 =
      (0x00F000F0#32, [], 4#32) := by decide

/-- V-RA-15. -/
theorem test_slt_signed :
    seen (one (.slt 8#5 9#5 10#5) [(9#5, 0x80000000#32), (10#5, 0x7FFFFFFF#32)] []) 8#5 =
      (0x00000001#32, [], 4#32) := by decide

/-- V-RA-18. -/
theorem test_sltu_unsigned :
    seen (one (.sltu 8#5 9#5 10#5) [(9#5, 0xFFFFFFFF#32), (10#5, 0x00000001#32)] []) 8#5 =
      (0x00000000#32, [], 4#32) := by decide

/-- V-RA-19. -/
theorem test_sltu_less :
    seen (one (.sltu 8#5 9#5 10#5) [(9#5, 0x00000001#32), (10#5, 0xFFFFFFFF#32)] []) 8#5 =
      (0x00000001#32, [], 4#32) := by decide

/-- V-CM-4. -/
theorem test_movn_overwrites_condition :
    seen (one (.movn 10#5 9#5 10#5) [(9#5, 0x0000002A#32), (10#5, 0x00000005#32)] []) 10#5 =
      (0x0000002A#32, [], 4#32) := by decide

/-- V-CM-2. -/
theorem test_movn_keeps :
    seen (one (.movn 8#5 9#5 10#5) [(8#5, 0x00000001#32), (9#5, 0x0000002A#32), (10#5, 0x00000000#32)] []) 8#5 =
      (0x00000001#32, [], 4#32) := by decide

/-- V-CM-5. -/
theorem test_movz_moves :
    seen (one (.movz 8#5 9#5 10#5) [(8#5, 0x00000001#32), (9#5, 0x0000002A#32), (10#5, 0x00000000#32)] []) 8#5 =
      (0x0000002A#32, [], 4#32) := by decide

/-- V-CM-8. -/
theorem test_movz_zero_forced :
    seen (one (.movz 0#5 9#5 0#5) [(9#5, 0x0000002A#32)] []) 0#5 =
      (0x00000000#32, [], 4#32) := by decide

/-- V-SH-2. -/
theorem test_sll_drops_high_bits :
    seen (one (.sll 8#5 9#5 31#5) [(9#5, 0x00000003#32)] []) 8#5 =
      (0x80000000#32, [], 4#32) := by decide

/-- V-SH-5. -/
theorem test_srl_fills_zero :
    seen (one (.srl 8#5 9#5 8#5) [(9#5, 0x89ABCDEF#32)] []) 8#5 =
      (0x0089ABCD#32, [], 4#32) := by decide

/-- V-SH-6. -/
theorem test_sra_fills_sign :
    seen (one (.sra 8#5 9#5 8#5) [(9#5, 0x89ABCDEF#32)] []) 8#5 =
      (0xFF89ABCD#32, [], 4#32) := by decide

/-- V-SH-9. -/
theorem test_sllv_amount_32 :
    seen (one (.sllv 8#5 9#5 10#5) [(9#5, 0x00000001#32), (10#5, 0x00000020#32)] []) 8#5 =
      (0x00000001#32, [], 4#32) := by decide

/-- V-SH-11. -/
theorem test_sllv_amount_read_first :
    seen (one (.sllv 10#5 9#5 10#5) [(9#5, 0x00000001#32), (10#5, 0x00000004#32)] []) 10#5 =
      (0x00000010#32, [], 4#32) := by decide

/-- V-SH-12. -/
theorem test_srlv_amount_36 :
    seen (one (.srlv 8#5 9#5 10#5) [(9#5, 0x89ABCDEF#32), (10#5, 0x00000024#32)] []) 8#5 =
      (0x089ABCDE#32, [], 4#32) := by decide

/-- V-SH-14. -/
theorem test_srav_fills_sign :
    seen (one (.srav 8#5 9#5 10#5) [(9#5, 0x89ABCDEF#32), (10#5, 0x00000004#32)] []) 8#5 =
      (0xF89ABCDE#32, [], 4#32) := by decide

/-- V-MEM-2. -/
theorem test_lw_misaligned :
    seen (one (.lw 8#5 9#5 0x0001#16) [(9#5, 0x00000100#32)] [(0x100, 0x78#8), (0x101, 0x56#8), (0x102, 0x34#8), (0x103, 0x12#8)]) 8#5 =
      (0x00123456#32, [], 4#32) := by decide

/-- V-MEM-5. -/
theorem test_lw_past_the_end :
    seen (one (.lw 8#5 9#5 0x0000#16) [(8#5, 0x00000005#32), (9#5, 0x00FFFFFD#32)] []) 8#5 =
      (0x00000000#32, [.invalidMemoryLocation], 4#32) := by decide

/-- V-MEM-12. -/
theorem test_lb_last_byte :
    seen (one (.lb 8#5 9#5 0x0000#16) [(9#5, 0x00FFFFFF#32)] [(0xFFFFFF, 0xFE#8)]) 8#5 =
      (0xFFFFFFFE#32, [], 4#32) := by decide

/-- V-MEM-13. -/
theorem test_lb_out_of_range :
    seen (one (.lb 8#5 9#5 0x0000#16) [(8#5, 0x00000009#32), (9#5, 0x01000000#32)] []) 8#5 =
      (0x00000000#32, [.invalidMemoryLocation], 4#32) := by decide

/-- V-MEM-14. -/
theorem test_lbu_zero_extends :
    seen (one (.lbu 8#5 9#5 0x0000#16) [(9#5, 0x00000100#32)] [(0x100, 0x80#8)]) 8#5 =
      (0x00000080#32, [], 4#32) := by decide

/-- V-MEM-16. -/
theorem test_lbu_below_zero :
    seen (one (.lbu 8#5 0#5 0xFFFF#16) [(8#5, 0x00000009#32)] []) 8#5 =
      (0x00000000#32, [.invalidMemoryLocation], 4#32) := by decide

/-- V-MEM-18. -/
theorem test_sw_misaligned :
    (fun s => (bytes s 0x201, s.diags.map Diagnostic.kind)) (one (.sw 8#5 9#5 0x0001#16) [(8#5, 0xAABBCCDD#32), (9#5, 0x00000200#32)] []) =
      ([0xDD#8, 0xCC#8, 0xBB#8, 0xAA#8], []) := by decide

/-- V-MEM-19. -/
theorem test_sw_suppressed_whole :
    (fun s => (bytes s 0xFFFFFC, s.diags.map Diagnostic.kind)) (one (.sw 8#5 9#5 0x0000#16) [(8#5, 0xAABBCCDD#32), (9#5, 0x00FFFFFE#32)] [(0xFFFFFE, 0x11#8), (0xFFFFFF, 0x22#8)]) =
      ([0x00#8, 0x00#8, 0x11#8, 0x22#8], [.invalidMemoryLocation]) := by decide

/-- V-MEM-21. -/
theorem test_sb_low_byte :
    (fun s => (bytes s 0x100, s.diags.map Diagnostic.kind)) (one (.sb 8#5 9#5 0x0001#16) [(8#5, 0x12345678#32), (9#5, 0x00000100#32)] [(0x100, 0x78#8), (0x101, 0x56#8), (0x102, 0x34#8), (0x103, 0x12#8)]) =
      ([0x78#8, 0x78#8, 0x34#8, 0x12#8], []) := by decide

/-- V-MEM-23. -/
theorem test_sb_below_zero :
    (fun s => (bytes s 0, s.diags.map Diagnostic.kind)) (one (.sb 8#5 0#5 0xFFFF#16) [(8#5, 0x000000FF#32)] []) =
      ([0x00#8, 0x00#8, 0x00#8, 0x00#8], [.invalidMemoryLocation]) := by decide

/-- V-MEM-20: a stored zero leaves memory in canonical form, listing nothing. -/
theorem test_sw_zero_is_unlisted :
    (one (.sw 0#5 9#5 0x0000#16) [(9#5, 0x00000100#32)] [(0x100, 0x78#8), (0x101, 0x56#8), (0x102, 0x34#8), (0x103, 0x12#8)]).mem = [] := by decide

/-- V-CY-1. -/
theorem test_nop : (fun s => (s.regs, s.mem, s.diags, s.pc)) (one .nop [] []) = (State.reset.regs, [], [], 4#32) := by decide

/-! ## Transfers (95_test_vectors.md 2.6): one step, the delay slot within it -/

/-- After one step of a program: pc, `curLine`, a register, and the diagnostics. -/
def jumped (text : String) (regs : List (RegIdx × Word)) (timing : LinkTiming) (r : RegIdx) :
    Word × Nat × Word × List Diagnostic :=
  (fun s => (s.pc, s.curLine, s.readReg r, s.diags))
    (stateOf (step (regs.foldl (fun s p => s.writeReg p.1 p.2) { boot text with linkTiming := timing })))

/-- V-BR-3. -/
theorem test_beq_condition_at_entry :
    jumped "beq $t0, $t1, L\naddiu $t0, $t0, 1\nnop\nL:\nnop" [(8#5, 0x00000005#32), (9#5, 0x00000005#32)] .beforeDelaySlot 8#5 =
      (12#32, 2, 0x00000006#32, []) := by decide

/-- V-BR-2. -/
theorem test_beq_not_taken :
    jumped "beq $t0, $t1, L\nnop\nnop\nL:\nnop" [(8#5, 0x00000005#32), (9#5, 0x00000006#32)] .beforeDelaySlot 8#5 =
      (8#32, 2, 0x00000005#32, []) := by decide

/-- V-BR-5. -/
theorem test_bne_not_taken :
    jumped "bne $t0, $t0, L\nnop\nL:\nnop" [(8#5, 0x00000003#32)] .beforeDelaySlot 8#5 =
      (8#32, 2, 0x00000003#32, []) := by decide

/-- 45_control_transfer.md R241, R249: taken, `L` at index 3. -/
theorem test_bne_taken :
    jumped "bne $t0, $zero, L\nnop\nnop\nL:\nnop" [(8#5, 0x00000003#32)] .beforeDelaySlot 8#5 =
      (12#32, 2, 0x00000003#32, []) := by decide

/-- V-BR-6. -/
theorem test_bltz_taken :
    jumped "bltz $t0, L\nnop\nnop\nL:\nnop" [(8#5, 0x80000000#32)] .beforeDelaySlot 8#5 =
      (12#32, 2, 0x80000000#32, []) := by decide

/-- V-BR-7. -/
theorem test_bltz_zero :
    jumped "bltz $t0, L\nnop\nnop\nL:\nnop" [(8#5, 0x00000000#32)] .beforeDelaySlot 8#5 =
      (8#32, 2, 0x00000000#32, []) := by decide

/-- V-BR-8. -/
theorem test_blez_zero :
    jumped "blez $t0, L\nnop\nnop\nL:\nnop" [(8#5, 0x00000000#32)] .beforeDelaySlot 8#5 =
      (12#32, 2, 0x00000000#32, []) := by decide

/-- V-BR-9. -/
theorem test_blez_positive :
    jumped "blez $t0, L\nnop\nnop\nL:\nnop" [(8#5, 0x7FFFFFFF#32)] .beforeDelaySlot 8#5 =
      (8#32, 2, 0x7FFFFFFF#32, []) := by decide

/-- V-BR-14. -/
theorem test_bgtz_condition_at_entry :
    jumped "bgtz $t0, L\naddiu $t0, $zero, 0\nnop\nL:\nnop" [(8#5, 0x00000001#32)] .beforeDelaySlot 8#5 =
      (12#32, 2, 0x00000000#32, []) := by decide

/-- V-BR-10. -/
theorem test_bgtz_negative :
    jumped "bgtz $t0, L\nnop\nnop\nL:\nnop" [(8#5, 0xFFFFFFFF#32)] .beforeDelaySlot 8#5 =
      (8#32, 2, 0xFFFFFFFF#32, []) := by decide

/-- V-BR-12. -/
theorem test_bgez_zero :
    jumped "bgez $t0, L\nnop\nnop\nL:\nnop" [(8#5, 0x00000000#32)] .beforeDelaySlot 8#5 =
      (12#32, 2, 0x00000000#32, []) := by decide

/-- V-BR-13. -/
theorem test_bgez_negative :
    jumped "bgez $t0, L\nnop\nnop\nL:\nnop" [(8#5, 0x80000000#32)] .beforeDelaySlot 8#5 =
      (8#32, 2, 0x80000000#32, []) := by decide

/-- V-BR-15. -/
theorem test_j :
    jumped "j L\nnop\nnop\nnop\nnop\nL:\nnop" [] .beforeDelaySlot 8#5 =
      (20#32, 2, 0x00000000#32, []) := by decide

/-- V-BR-16. -/
theorem test_jal_link_before :
    jumped "jal F\naddiu $ra, $ra, 4\nnop\nF:\nnop" [] .beforeDelaySlot 31#5 =
      (12#32, 2, 0x0000000C#32, []) := by decide

/-- V-BR-17. -/
theorem test_jal_link_after :
    jumped "jal F\naddiu $ra, $ra, 4\nnop\nF:\nnop" [] .afterDelaySlot 31#5 =
      (12#32, 2, 0x00000008#32, []) := by decide

/-- V-BR-20. -/
theorem test_jr_target_at_entry :
    jumped "jr $t1\naddiu $t1, $zero, 0\nnop\nnop" [(9#5, 0x0000000C#32)] .beforeDelaySlot 9#5 =
      (12#32, 2, 0x00000000#32, []) := by decide

/-- V-BR-24. -/
theorem test_jalr_link_is_target :
    jumped "jalr $ra\nnop\nnop\nnop" [(31#5, 0x00000008#32)] .beforeDelaySlot 31#5 =
      (8#32, 2, 0x00000008#32, []) := by decide

/-- V-BR-22. -/
theorem test_nested_jal_no_link :
    jumped "j A\njal B\nnop\nA:\nnop\nB:\nnop" [(31#5, 0x00000007#32)] .beforeDelaySlot 31#5 =
      (12#32, 2, 0x00000007#32, [⟨2, .nestedTransfer⟩]) := by decide

/-- V-BR-28. -/
theorem test_jump_sentinel :
    jumped "j nowhere\nnop\nnop" [] .beforeDelaySlot 8#5 =
      (0x0FFFFFFC#32, 2, 0x00000000#32, [⟨1, .undefinedLabel⟩]) := by decide

/-- V-BR-29. -/
theorem test_branch_sentinel :
    jumped "beq $zero, $zero, nowhere\nnop\nnop" [] .beforeDelaySlot 8#5 =
      (0x00020000#32, 2, 0x00000000#32, [⟨1, .undefinedLabel⟩]) := by decide

/-- V-BR-31. -/
theorem test_slot_reports_its_own_line :
    jumped "beq $zero, $zero, L\nlw $t0, -4($zero)\nL:\nnop" [(8#5, 0x00000009#32)] .beforeDelaySlot 8#5 =
      (8#32, 2, 0x00000000#32, [⟨2, .invalidMemoryLocation⟩]) := by decide

/-- V-BR-4: a backward branch, after three steps. -/
theorem test_branch_backward :
    (fun s => (s.pc, s.curLine)) (steps 4 ((boot "nop\nL:\nnop\nnop\nbne $t0, $zero, L\nnop").writeReg 8#5 3#32)) = (4#32, 6) := by
  decide

/-- V-BR-25: the state the fault keeps has the pc past the end and the flag set. -/
theorem test_delay_slot_past_end :
    (fun r => (faultOf r, (stateOf r).pc, (stateOf r).inDelaySlot)) (step (steps 1 (boot "nop\nj nowhere"))) =
      (1, 8#32, true) := by decide

/-- V-BR-26: an in-bounds pc that is no multiple of 4. -/
theorem test_misaligned_fetch :
    (fun r => (faultOf r, (stateOf r).pc)) (step (steps 1 ((boot "jr $t1\nnop\nnop\nnop").writeReg 9#5 6#32))) = (2, 6#32) := by
  decide

/-- V-BR-27: a misaligned pc out of bounds is halted. -/
theorem test_misaligned_out_of_bounds_halts :
    (fun s => (s.halted, faultOf (step s), decide (stateOf (step s) = s)))
      (steps 1 ((boot "jr $t1\nnop\nnop\nnop").writeReg 9#5 0x1001#32)) = (true, 0, true) := by decide

/-! ## Cycle and run control (95_test_vectors.md 2.7) -/

/-- V-CY-3, V-CY-4, V-CY-5, V-CY-6: the records that spell no instruction, and the keyword in any case. -/
theorem test_no_instruction :
    (boot "syscall").prog = [⟨.invalid, 1⟩] ∧
    seen (stateOf (step (boot "syscall"))) 8#5 = (0#32, [.invalidInstruction], 4#32) ∧
    seen (stateOf (step ((boot "add $t0, $t1, $t2").writeReg 8#5 3#32))) 8#5 = (3#32, [.unsupportedOperation], 4#32) ∧
    seen (stateOf (step (boot "nop $t0"))) 8#5 = (0#32, [.unsupportedOperation], 4#32) ∧
    seen (stateOf (step (boot "Nop"))) 8#5 = (0#32, [], 4#32) := by decide

/-- V-CY-8: `RunUntilLine(2)` after two steps of three. -/
theorem test_run_until_line :
    (match runUntilLine 2 3 (boot "addiu $t0, $zero, 5\naddiu $t1, $zero, 6\nnop") with
      | .ended (.ready s) => (s.pc, s.curLine, s.halted)
      | _ => (0#32, 0, true)) = (8#32, 2, false) := by decide

/-- V-CY-13: a loop does not end, whatever the fuel; here with fuel 2. -/
theorem test_run_out_of_fuel :
    (match run 2 (boot "L:\nj L\nnop") with
      | .running s => (s.pc, s.curLine)
      | _ => (1#32, 0)) = (0#32, 3) := by decide

/-- E-4, program P1, run to its end. -/
theorem test_p1 :
    (match run 9 (boot "beq $0,$0,L\naddiu $t0,$t0,1\nL:\naddiu $t0,$t0,5") with
      | .ended (.ready s) => (s.pc, s.readReg 8#5, s.halted)
      | _ => (0#32, 0#32, false)) = (12#32, 6#32, true) := by decide

/-! ## Front end (95_test_vectors.md 2.8) -/

/-- V-FE-1. -/
theorem test_loader_empty :
    load "# comment only\n\n   \nstart:".toList = ⟨[], [("start".toList, 0)], []⟩ := by decide

/-- V-FE-2. -/
theorem test_loader_labels :
    (frontEnd "  addiu $t0, $zero, 1   # one\n\nloop1:\nloop:\n  nop\nloop:\n  j loop\n  NOP".toList).toOption =
      some ([⟨.op (.addiu 8#5 0#5 1#16 false), 1⟩, ⟨.op .nop, 5⟩, ⟨.op (.j 2#26), 7⟩, ⟨.op .nop, 8⟩],
        [⟨3, .labelDigits⟩, ⟨6, .duplicateLabel⟩]) := by decide

/-- V-FE-4, V-FE-5: a jump to a number is a jump to an undefined label; a label may stand at the end. -/
theorem test_linker :
    (frontEnd "j 5\nnop".toList).toOption =
      some ([⟨.op (.j 0x3FFFFFF#26), 1⟩, ⟨.op .nop, 2⟩], [⟨1, .undefinedLabel⟩]) ∧
    (frontEnd "beq $t0, $t1, end\nnop\nend:".toList).toOption =
      some ([⟨.op (.beq 8#5 9#5 1#16), 1⟩, ⟨.op .nop, 2⟩], []) := by decide

/-- V-FE-6, V-FE-7. -/
theorem test_lines_of_no_instruction :
    (boot "syscall\nNop\nadd $t0, $t1, $t2\nnop $t0\nmove $t0, $t1").prog.map Entry.record =
      [.invalid, .op .nop, .unsup, .unsup, .unsup] ∧
    (boot "mult $t0, $t1\nsync\nsync 0\nbeql $t0, $t1, 4").prog.map Entry.record =
      [.unsup, .invalid, .unsup, .unsup] := by decide

/-- V-FE-8, V-FE-9. -/
theorem test_admitted_spellings :
    (boot "ADDIU $t0, $zero, 1").prog = [⟨.op (.addiu 8#5 0#5 1#16 false), 1⟩] ∧
    (boot "addiu $31, $0, 1").prog = [⟨.op (.addiu 31#5 0#5 1#16 false), 1⟩] := by decide

/-- V-FE-3 and V-FE-10 to V-FE-19. -/
theorem test_refused_programs :
    ["L: addiu $t0, $t0, 1", "addiu $T0, $t0, 1", "addiu $32, $0, 1", "addiu $t0, $t0, 0x10",
      "lw $t0, L($zero)\nL:\nnop", "sll $t0, $t1, 32", "addiu $t0, $t0, -32769", "lw $t0, 32768($zero)",
      "jalr $t0, $t1", "addiu $t0, $t0", "la $t0, L\nL:\nnop", "b L\nL:\nnop"].map refusalOf =
    [some .unknownValue, some .invalidRegister, some .invalidRegister, some .unknownValue, some .unknownValue,
      some .shiftAmount, some .immediateTooLow, some .memoryOffset, some .wrongOperands, some .wrongOperands,
      some .unknownValue, some .unknownValue] := by decide

/-- 30_encoding.md R107: a branch whose label is too far away; the label at index 0, the branch at 32768. -/
theorem test_branch_too_far :
    linkBranch [("L".toList, 0)] 32768 "L".toList = .error .branchOffset ∧
    linkBranch [("L".toList, 0)] 32767 "L".toList = .ok (0x8000#16, []) := by
  constructor <;> rfl

/-! ## Reset -/

/-- `State.reset` is the engine built from the empty program with the launch parameters of the log. -/
theorem test_reset_is_launch : State.reset = State.launch LaunchParams.default [] [] ∧ boot "" = State.reset := by decide

/-- 10_state.md R35 with other launch parameters. -/
theorem test_launch_parameters :
    (fun s => (s.readReg 0#5, s.readReg 1#5, s.readReg 31#5, s.mem, s.linkTiming))
      (State.launch ⟨Vector.replicate 31 7#32, [(5, 1#8), (3, 2#8), (5, 0#8)], .afterDelaySlot, 9, 9⟩ [] []) =
    (0#32, 7#32, 7#32, [(3, 2#8)], .afterDelaySlot) := by decide

/-- A fetched word runs as the first instruction after reset; a transfer's delay slot too. -/
theorem test_with_fetch_word :
    (stateOf (step (State.reset.withFetchWord 32 0x24080005))).readReg 8#5 = 5#32 ∧
    (fun s => (s.pc, s.readReg 31#5)) (stateOf (step (State.reset.withFetchWord 32 0x0C000002))) = (8#32, 8#32) := by decide

/-! ## Witnesses: concrete states and operands that meet the hypotheses of the statements

Each is named after its statement in Certificates/Slice0/Obligations.lean. A statement without hypotheses has none. -/

/-- Two instruction lines, a delay slot that reports, and one linker diagnostic. -/
def sampleText : String := "addiu $t0, $zero, 65536\nj nowhere\nnop"

/-- A state between commands: three records, register 9 at 8, one listed byte. -/
def sample (prog : List Record) : State := machine prog [(9#5, 8#32)] [(0x100, 0x78#8)]

/-- `sample` with the pc at `pc`. -/
def sampleAt (prog : List Record) (pc : Word) : State := { sample prog with pc := pc }

/-- `sample` at the handler's entry of the transfer at index 0: the pc at its delay slot. -/
def atEntry (prog : List Record) : State := { sample prog with pc := 4#32, curLine := 1 }

theorem slotReady_of {s : State} (h : s.inDelaySlot = false ∧ s.pc.toNat % 4 = 0 ∧ s.pc.toNat < 4 * s.prog.length) :
    SlotReady s := ⟨h.1, h.2.1, h.2.2⟩

theorem inv_of {s : State}
    (h : s.readReg zeroReg = 0#32 ∧ s.inDelaySlot = false ∧ s.mem.wf ∧ wellFormedProgram s.prog) : s.Inv :=
  ⟨h.1, h.2.1, h.2.2.1, h.2.2.2⟩

theorem reaches_step {s : State} (h : isNext (step s) = true) : Reaches s (stateOf (step s)) :=
  .step (.refl s) (next_of_isNext h)

theorem witness_DecodeOfEncodeIsIdentity :
    ([.nop, .sll 31#5 31#5 31#5, .jalr 31#5, .jr 0#5, .j 0x3FFFFFF#26, .bltz 31#5 0x8000#16, .beq 0#5 31#5 0xFFFF#16,
      .addiu 31#5 0#5 0x8000#16 false, .lui 31#5 0xFFFF#16 false, .sw 0#5 31#5 0x8000#16] : List Instr).all
        Instr.wellFormed = true := by decide

theorem witness_EncodeOfDecodeIsIdentity :
    decodeWord 0xAFFFFFFF#32 = .record (.op (.sw 31#5 31#5 0xFFFF#16)) := by decide

theorem witness_WordDecodesByFirstMatchingRow :
    (∃ r later, opcodeTable = nopRow ++ r :: later ∧
      (∀ p ∈ nopRow, 0x000947C0#32 &&& p.mask ≠ p.pattern) ∧ 0x000947C0#32 &&& r.mask = r.pattern) ∧
    (∀ p ∈ opcodeTable, 0xFFFFFFFF#32 &&& p.mask ≠ p.pattern) ∧
    (∀ p ∈ opcodeTable, 0x01204009#32 &&& p.mask ≠ p.pattern) ∧
    decodeWord 0x3C081234#32 = .record (.op (.lui 8#5 0x1234#16 false)) := by
  refine ⟨⟨_, _, rfl, ?_⟩, ?_⟩ <;> decide

/-- Both branches: rd 31, and the rds beside it and at the other end. -/
theorem witness_JalrWordLinksOnlyRegister31 :
    decodeWord (wordR 31#5 0#5 31#5 0#5 0x09#6) = .record (.op (.jalr 31#5)) ∧
    decodeWord (wordR 31#5 0#5 30#5 0#5 0x09#6) = .refused .jalrLinksElsewhere ∧
    decodeWord (wordR 31#5 0#5 0#5 0#5 0x09#6) = .refused .jalrLinksElsewhere := by decide

theorem witness_ConstructionGivesResetValues :
    State.construct LaunchParams.default sampleText.toList = .ok (boot sampleText) ∧
    (boot sampleText).prog.length = 3 ∧ Memory.wf [(0x100, 0x78#8), (0xFFFFFF, 1#8)] :=
  ⟨boot_ok (by decide), by decide, by decide⟩

theorem witness_EmptyProgramStaysUnchanged :
    State.construct LaunchParams.default "# nothing\nL:".toList = .ok (boot "# nothing\nL:") ∧
    (boot "# nothing\nL:").prog = [] := ⟨boot_ok (by decide), by decide⟩

theorem witness_ConstructedEngineMeetsInvariant :
    State.construct LaunchParams.default sampleText.toList = .ok (boot sampleText) := boot_ok (by decide)

theorem witness_StepKeepsInvariant :
    (sample [.op (.sw 9#5 9#5 0#16)]).Inv ∧ (∃ t, step (sample [.op (.sw 9#5 9#5 0#16)]) = .next t) ∧
    (sample [.op (.jr 9#5), .op (.addiu 0#5 9#5 7#16 false)]).Inv ∧
    ∃ t, step (sample [.op (.jr 9#5), .op (.addiu 0#5 9#5 7#16 false)]) = .next t :=
  ⟨inv_of (by decide), ⟨_, next_of_isNext (by decide)⟩, inv_of (by decide), ⟨_, next_of_isNext (by decide)⟩⟩

theorem witness_RegisterZeroIsForcedAfterEveryDispatch :
    (sample [.op (.addiu 0#5 9#5 7#16 false)]).pc.toNat % 4 = 0 ∧
    (sample [.op (.addiu 0#5 9#5 7#16 false)]).prog[0]? = some ⟨.op (.addiu 0#5 9#5 7#16 false), 1⟩ ∧
    State.construct LaunchParams.default "addiu $0, $0, 7".toList = .ok (boot "addiu $0, $0, 7") ∧
    Reaches (boot "addiu $0, $0, 7") (stateOf (step (boot "addiu $0, $0, 7"))) :=
  ⟨by decide, by decide, boot_ok (by decide), reaches_step (by decide)⟩

theorem witness_RegisterZeroReadsZero :
    State.construct LaunchParams.default sampleText.toList = .ok (boot sampleText) ∧
    Reaches (boot sampleText) (stateOf (step (boot sampleText))) :=
  ⟨boot_ok (by decide), reaches_step (by decide)⟩

/-- Each of the three clauses, at the first and at the last entry. -/
theorem witness_StepRunsTheFetchedRecord :
    ((sample [.op (.jr 9#5), .unsup, .invalid]).prog[(sample [.op (.jr 9#5), .unsup, .invalid]).pc.toNat / 4]? =
      some ⟨.op (.jr 9#5), 1⟩ ∧ (sample [.op (.jr 9#5), .unsup, .invalid]).pc.toNat % 4 = 0) ∧
    ((sampleAt [.op (.jr 9#5), .unsup, .invalid] 4#32).prog[(4#32).toNat / 4]? = some ⟨.unsup, 2⟩ ∧ (4#32).toNat % 4 = 0) ∧
    (sampleAt [.op (.jr 9#5), .unsup, .invalid] 8#32).prog[(8#32).toNat / 4]? = some ⟨.invalid, 3⟩ ∧ (8#32).toNat % 4 = 0 := by
  decide

theorem witness_StepRunsThePlacedWord :
    decodeWord 0x0120F809#32 = .record (.op (.jalr 9#5)) ∧ State.reset.pc.toNat % 4 = 0 ∧
    Instr.isTransfer (.jalr 9#5) = true ∧ State.reset.inDelaySlot = false := by decide

/-- Halted at the end and not one entry before it; a constructed engine after a step; a run that ends. -/
theorem witness_HaltedEngineHasNoTransition :
    (sampleAt [.op .nop, .op .nop] 8#32).halted = true ∧ (sampleAt [.op .nop, .op .nop] 7#32).halted = false ∧
    (sampleAt [.op .nop, .op .nop] 0xFFFFFFFF#32).halted = true ∧
    State.construct LaunchParams.default sampleText.toList = .ok (boot sampleText) ∧
    Reaches (boot sampleText) (stateOf (step (boot sampleText))) ∧
    run 2 (sample [.op .nop, .op .nop]) = .ended (.ready (steps 2 (sample [.op .nop, .op .nop]))) :=
  ⟨by decide, by decide, by decide, boot_ok (by decide), reaches_step (by decide), by decide⟩

/-- Misaligned pcs at both ends of the program, and one out of bounds. -/
theorem witness_MisalignedFetchFaultsExactlyInBounds :
    (sample [.op .nop, .op .nop]).inDelaySlot = false ∧ (sample [.op .nop, .op .nop]).prog.length = 2 ∧
    [1#32, 7#32, 8#32, 9#32].map (fun pc => faultOf (step (sampleAt [.op .nop, .op .nop] pc))) = [2, 2, 0, 0] := by decide

/-- A linking transfer and one that does not link, each the last entry. -/
theorem witness_LastEntryTransferFaults :
    ∀ i ∈ ([.jalr 9#5, .beq 0#5 9#5 0#16] : List Instr),
      (sampleAt [.op .nop, .op i] 4#32).inDelaySlot = false ∧ wellFormedProgram (sampleAt [.op .nop, .op i] 4#32).prog ∧
      (sampleAt [.op .nop, .op i] 4#32).pc.toNat + 4 = 4 * (sampleAt [.op .nop, .op i] 4#32).prog.length ∧
      (sampleAt [.op .nop, .op i] 4#32).prog[1]? = some ⟨.op i, 2⟩ ∧ Record.isTransfer (.op i) = true := by decide

theorem fault_of_faultOf {r : Result} (h : faultOf r = 1) : r = .fault (.delaySlotPastEnd (stateOf r)) := by
  unfold faultOf at h
  split at h <;> first | rfl | cases h

theorem witness_DelaySlotPastEndOnlyAtLastEntryTransfer :
    (sample [.op (.jalr 9#5)]).inDelaySlot = false ∧ wellFormedProgram (sample [.op (.jalr 9#5)]).prog ∧
    ∃ u, step (sample [.op (.jalr 9#5)]) = .fault (.delaySlotPastEnd u) :=
  ⟨by decide, by decide, _, fault_of_faultOf (by decide)⟩

theorem witness_NestedStepIsTheSameProcedure :
    (({ sample [.op (.jalr 9#5)] with inDelaySlot := true } : State).inDelaySlot = true ∧
      ({ sample [.op (.jalr 9#5)] with inDelaySlot := true } : State).halted = false) ∧
    ({ sample [] with inDelaySlot := true } : State).inDelaySlot = true ∧
    ({ sample [] with inDelaySlot := true } : State).halted = true := by decide

theorem witness_OnlyTransfersLeaveTheSequentialPath :
    (sample [.op (.sw 9#5 9#5 0#16)]).pc.toNat % 4 = 0 ∧
    (sample [.op (.sw 9#5 9#5 0#16)]).prog[0]? = some ⟨.op (.sw 9#5 9#5 0#16), 1⟩ ∧
    Record.isTransfer (.op (.sw 9#5 9#5 0#16)) = false ∧ ∃ t, step (sample [.op (.sw 9#5 9#5 0#16)]) = .next t :=
  ⟨by decide, by decide, by decide, _, next_of_isNext (by decide)⟩

theorem witness_TransferStepRecordsTheDelaySlot :
    (sample [.op (.jr 9#5), .unsup]).inDelaySlot = false ∧ wellFormedProgram (sample [.op (.jr 9#5), .unsup]).prog ∧
    (sample [.op (.jr 9#5), .unsup]).pc.toNat % 4 = 0 ∧
    (sample [.op (.jr 9#5), .unsup]).prog[0]? = some ⟨.op (.jr 9#5), 1⟩ ∧ Record.isTransfer (.op (.jr 9#5)) = true ∧
    ∃ t, step (sample [.op (.jr 9#5), .unsup]) = .next t :=
  ⟨by decide, by decide, by decide, by decide, by decide, _, next_of_isNext (by decide)⟩

theorem witness_NopChangesNothing :
    (sample [.op .nop]).pc.toNat % 4 = 0 ∧ (sample [.op .nop]).prog[0]? = some ⟨.op .nop, 1⟩ ∧
    (sample [.op .nop]).readReg 0#5 = 0#32 := by decide

/-- The condition register zero, and not zero. -/
theorem witness_ConditionalMoveResults :
    (sample []).readReg 8#5 = 0#32 ∧ (sample []).readReg 9#5 ≠ 0#32 := by decide

/-- Effective addresses on both sides of each bound of the range check, for both widths. -/
theorem witness_LoadResults :
    (∀ p ∈ ([(0x00000000#32, 1), (0x00FFFFFF#32, 1), (0x00000000#32, 4), (0x00FFFFFC#32, 4)] : List (Word × Nat)),
      inRange (effectiveAddress p.1 0#16) p.2 = true) ∧
    ∀ p ∈ ([(0xFFFFFFFF#32, 1), (0x01000000#32, 1), (0xFFFFFFFF#32, 4), (0x00FFFFFD#32, 4)] : List (Word × Nat)),
      inRange (effectiveAddress p.1 0#16) p.2 = false := by decide

/-- The same bounds, and a memory in canonical form. -/
theorem witness_StoreResults :
    (sample []).mem.wf ∧ (sample []).mem.length = 1 ∧
    inRange (effectiveAddress 0x00000000#32 0#16) 4 = true ∧ inRange (effectiveAddress 0x00FFFFFC#32 0#16) 4 = true ∧
    inRange (effectiveAddress 0x00FFFFFD#32 0#16) 4 = false ∧ inRange (effectiveAddress 0x00FFFFFF#32 0#16) 1 = true ∧
    inRange (effectiveAddress 0x00FFFFFF#32 1#16) 1 = false := by decide

/-- Taken and not taken. -/
theorem witness_EqualityBranchesComplete :
    SlotReady (atEntry [.op (.beq 0#5 9#5 1#16), .op .nop]) ∧
    (atEntry []).readReg 0#5 = (atEntry []).readReg 8#5 ∧ (atEntry []).readReg 0#5 ≠ (atEntry []).readReg 9#5 :=
  ⟨slotReady_of (by decide), by decide, by decide⟩

/-- A register below, at and above zero. -/
theorem witness_SignBranchesComplete :
    SlotReady (atEntry [.op (.bltz 9#5 1#16), .op .nop]) ∧
    ((atEntry [.op (.bltz 9#5 1#16), .op .nop]).writeReg 8#5 0xFFFFFFFF#32).readReg 8#5 = 0xFFFFFFFF#32 ∧
    (atEntry [.op (.bltz 9#5 1#16), .op .nop]).readReg 8#5 = 0#32 ∧
    (atEntry [.op (.bltz 9#5 1#16), .op .nop]).readReg 9#5 = 8#32 :=
  ⟨slotReady_of (by decide), by decide, by decide, by decide⟩

theorem witness_PlainJumpsComplete : SlotReady (atEntry [.op (.jr 9#5), .op .nop]) := slotReady_of (by decide)

/-- Both values of LINK_TIMING. -/
theorem witness_LinkingJumpsComplete :
    SlotReady (atEntry [.op (.jalr 9#5), .op .nop]) ∧ (atEntry []).linkTiming = .beforeDelaySlot ∧
    SlotReady { atEntry [.op (.jalr 9#5), .op .nop] with linkTiming := .afterDelaySlot } :=
  ⟨slotReady_of (by decide), by decide, slotReady_of (by decide)⟩

theorem witness_NestedTransferHasNoEffect :
    ({ sample [.op (.jal 0#26)] with inDelaySlot := true } : State).inDelaySlot = true ∧
    ({ sample [.op (.jal 0#26)] with inDelaySlot := true } : State).pc.toNat % 4 = 0 ∧
    ({ sample [.op (.jal 0#26)] with inDelaySlot := true } : State).prog[0]? = some ⟨.op (.jal 0#26), 1⟩ ∧
    Instr.isTransfer (.jal 0#26) = true ∧ SlotReady (atEntry [.op (.j 2#26), .op (.jal 0#26)]) ∧
    (atEntry [.op (.j 2#26), .op (.jal 0#26)]).prog[1]? = some ⟨.op (.jal 0#26), 2⟩ :=
  ⟨by decide, by decide, by decide, by decide, slotReady_of (by decide), by decide⟩

/-- Each transfer that reads a register, with a delay slot that writes it. -/
theorem witness_DelaySlotCannotRedirectItsTransfer :
    ∀ i ∈ ([.jr 9#5, .jalr 9#5, .beq 9#5 0#5 1#16, .bne 9#5 0#5 1#16, .bltz 9#5 1#16, .blez 9#5 1#16, .bgtz 9#5 1#16,
        .bgez 9#5 1#16] : List Instr),
      (sample [.op i, .op (.lui 9#5 1#16 false)]).inDelaySlot = false ∧
      (sample [.op i, .op (.lui 9#5 1#16 false)]).pc.toNat % 4 = 0 ∧
      (sample [.op i, .op (.lui 9#5 1#16 false)]).prog[0]? = some ⟨.op i, 1⟩ ∧
      isNext (step (sample [.op i, .op (.lui 9#5 1#16 false)])) = true := by decide

/-- A `jal` whose delay slot leaves register 31 alone, under both values; and one whose slot does not, excluded. -/
theorem witness_LinkTimingMattersOnlyWhenTheSlotTouchesRegister31 :
    (∀ e d : Entry, (sample [.op (.jal 2#26), .op (.addu 8#5 9#5 9#5)]).prog[0]? = some e → isLinking e.record = true →
      (sample [.op (.jal 2#26), .op (.addu 8#5 9#5 9#5)]).prog[1]? = some d → avoidsLinkInSlot d.record = true) ∧
    (sample [.op (.jal 2#26), .op (.addu 8#5 9#5 9#5)]).pc.toNat + 4 < 2 ^ 32 ∧
    (∃ t, step (sample [.op (.jal 2#26), .op (.addu 8#5 9#5 9#5)]) = .next t) ∧
    avoidsLinkInSlot (.op (.addu 8#5 31#5 9#5)) = false := by
  refine ⟨?_, by decide, ⟨_, next_of_isNext (by decide)⟩, by decide⟩
  intro e d he _ hd
  have he : some (⟨.op (.addu 8#5 9#5 9#5), 2⟩ : Entry) = some d := hd
  cases he
  decide

theorem witness_StoreThenLoadReturnsTheWord :
    (sample []).mem.wf ∧ inRange (effectiveAddress ((sample []).readReg 9#5) 0xFFF9#16) 4 = true ∧
    inRange (effectiveAddress ((sample []).readReg 9#5) 0xFFF8#16) 4 = true := by decide

/-- The word at the last address, at its first and last byte. -/
theorem witness_MixedWidthAccessesAgree :
    (sample []).mem.wf ∧ 0xFFFFFC + 4 ≤ memSize ∧ ¬ 0xFFFFFD + 4 ≤ memSize ∧ 0 < 4 ∧ 3 < 4 := by decide

/-- Both widths, in range at the last address, and out of range past it and below 0. -/
theorem witness_WrappedAddressGivesTheSameVerdict :
    (1 = 1 ∨ 1 = 4) ∧ (4 = 1 ∨ 4 = 4) ∧ inRange (effectiveAddress 0x00FFFFFC#32 0#16) 4 = true ∧
    inRange (effectiveAddress 0x00FFFFFF#32 0#16) 1 = true ∧ inRange (effectiveAddress 0x00FFFFFF#32 1#16) 1 = false ∧
    inRange (effectiveAddress 0x80000000#32 0x8000#16) 4 = false := by decide

/-- The names at both ends and across the break of the t registers, by hand from 10_state.md R21. -/
theorem witness_RegistersResolveByNameAndIndex :
    ["$zero", "$t7", "$s0", "$s7", "$t8", "$ra", "$31"].map (fun n => (resolveRegister n.toList).toOption) =
      [some 0#5, some 15#5, some 16#5, some 23#5, some 24#5, some 31#5, some 31#5] := by decide

/-- A store that the step does not execute, after an instruction that is no transfer; and a transfer with a load in its
delay slot. -/
theorem witness_OnlyStoresChangeMemory :
    ∀ prog ∈ ([[.op (.addu 8#5 9#5 9#5), .op (.sw 9#5 9#5 0#16)], [.op (.jr 9#5), .op (.lw 8#5 9#5 0#16)]] : List (List Record)),
      (∀ e, (sample prog).prog[(sample prog).pc.toNat / 4]? = some e →
        (∀ i, e.record = .op i → isStore i = false) ∧
        (e.record.isTransfer = true → (sample prog).inDelaySlot = false →
          ∀ d i, (sample prog).prog[((sample prog).pc + 4#32).toNat / 4]? = some d → d.record = .op i → isStore i = false)) ∧
      ∃ t, step (sample prog) = .next t := by
  intro prog hp
  rcases List.mem_cons.1 hp with rfl | hp
  · refine ⟨?_, _, next_of_isNext (by decide)⟩
    intro e he
    have he : some (⟨.op (.addu 8#5 9#5 9#5), 1⟩ : Entry) = some e := he
    cases he
    exact ⟨fun i hi => by cases hi; rfl, fun ht => by cases ht⟩
  · obtain rfl := List.mem_singleton.1 hp
    refine ⟨?_, _, next_of_isNext (by decide)⟩
    intro e he
    have he : some (⟨.op (.jr 9#5), 1⟩ : Entry) = some e := he
    cases he
    refine ⟨fun i hi => by cases hi; rfl, fun _ _ d i hd hi => ?_⟩
    have hd : some (⟨.op (.lw 8#5 9#5 0#16), 2⟩ : Entry) = some d := hd
    cases hd
    cases hi
    rfl

theorem witness_StraightInstructionsCompleteAndLeaveControlAlone :
    Instr.isTransfer (.sw 9#5 9#5 0#16) = false ∧ Instr.isTransfer .nop = false := by decide

/-- A step that reports, and one that does not. -/
theorem witness_StepReportsAtMostOnce :
    (boot sampleText).inDelaySlot = false ∧ (∃ t, step (boot sampleText) = .next t) ∧
    (stateOf (step (boot sampleText))).diags.length = (boot sampleText).diags.length + 1 ∧
    (stateOf (step (sample [.op .nop]))).diags = (sample [.op .nop]).diags :=
  ⟨by decide, ⟨_, next_of_isNext (by decide)⟩, by decide, by decide⟩

theorem witness_RunsAppendDiagnosticsAndKeepTheProgram :
    Reaches (boot sampleText) (stateOf (step (boot sampleText))) := reaches_step (by decide)

/-- The last in-bounds pc of a program, and the first one out of bounds. -/
theorem witness_InBoundsPcHasZeroHighBits :
    wellFormedProgram (sampleAt [.op .nop, .op .nop] 7#32).prog ∧ (sampleAt [.op .nop, .op .nop] 7#32).halted = false ∧
    (sampleAt [.op .nop, .op .nop] 8#32).halted = true := by decide

/-- Labels at the first and at the last index a branch at index 32767 reaches, and at the last index of all. -/
theorem witness_LinkedTargetsReachTheirLabels :
    labelIndex [("L".toList, 0)] "L".toList = some 0 ∧ (32767 < nMax ∧ 0 ≤ nMax) ∧
    linkBranch [("L".toList, 0)] 32767 "L".toList = .ok (0x8000#16, []) ∧
    labelIndex [("M".toList, 65535)] "M".toList = some 65535 ∧
    linkBranch [("M".toList, 65535)] 32767 "M".toList = .ok (0x7FFF#16, []) ∧
    labelIndex [("E".toList, nMax)] "E".toList = some nMax ∧ nMax ≤ nMax := by
  refine ⟨by decide, by decide, rfl, by decide, rfl, by decide, Nat.le_refl _⟩

theorem witness_SentinelsRunOffTheEnd :
    labelIndex [("L".toList, 0)] "nowhere".toList = none ∧ wellFormedProgram (sample [.op .nop, .unsup]).prog ∧
    1 < (sample [.op .nop, .unsup]).prog.length ∧ (sample [.op .nop, .unsup]).prog.length ≤ 1 + 32768 := by decide

/-- Both sides of each bound. -/
theorem witness_ImmediateLiteralsAreTruncatedAndMarked :
    immediateField (-32769) = .error .immediateTooLow ∧ immediateField (-32768) = .ok (0x8000#16, false) ∧
    immediateField 65535 = .ok (0xFFFF#16, false) ∧ immediateField 65536 = .ok (0#16, true) := by
  refine ⟨rfl, rfl, rfl, rfl⟩

theorem witness_LastLabelDefinitionWins :
    "loop".toList.any Char.isDigit = false ∧ "loop1".toList.any Char.isDigit = true ∧ "end".toList ≠ "loop".toList ∧
    labelIndex [("loop".toList, 4)] "loop".toList = some 4 ∧ labelIndex [("loop".toList, 4)] "end".toList = none := by
  decide

/-- Loader, linker and engine diagnostics together. -/
theorem witness_LoaderDiagnosticsPrecedeLinkerDiagnostics :
    State.construct LaunchParams.default "l1:\nsyscall\nj nowhere\nnop".toList = .ok (boot "l1:\nsyscall\nj nowhere\nnop") ∧
    Reaches (boot "l1:\nsyscall\nj nowhere\nnop") (stateOf (step (boot "l1:\nsyscall\nj nowhere\nnop"))) ∧
    (stateOf (step (boot "l1:\nsyscall\nj nowhere\nnop"))).diags =
      [⟨1, .labelDigits⟩, ⟨3, .undefinedLabel⟩, ⟨2, .invalidInstruction⟩] :=
  ⟨boot_ok (by decide), reaches_step (by decide), by decide⟩

theorem witness_LinesWithoutSeparatorAreNopOrInvalid :
    (∀ c ∈ (['N', 'o', 'P'] : Text), isBlank c = false) ∧ (∀ c ∈ (['$', ':'] : Text), isBlank c = false) ∧
    ∀ c ∈ ([] : Text), isBlank c = false := by simp [isBlank]

theorem witness_EntriesAreTheDecodedLines :
    (frontEnd "nop\n\nj L\nL:\nnop".toList).toOption =
      some ([⟨.op .nop, 1⟩, ⟨.op (.j 2#26), 3⟩, ⟨.op .nop, 5⟩], []) ∧
    (load "nop\n\nj L\nL:\nnop".toList).lines[1]? = some ⟨"j L".toList, 3⟩ := by decide

theorem witness_RunEndsHaltedWhateverTheFuel :
    run 2 (sample [.op .nop, .op .nop]) = .ended (.ready (steps 2 (sample [.op .nop, .op .nop]))) ∧
    run 1 (sample [.op (.jr 9#5)]) = .ended (.faulted (.delaySlotPastEnd
      { sample [.op (.jr 9#5)] with pc := 4#32, inDelaySlot := true, curLine := 1 })) := by decide

/-- Ended at the line, and ended halted. -/
theorem witness_RunUntilLineEndsAtTheLineOrHalted :
    runUntilLine 1 5 (sample [.op .nop, .op .nop]) = .ended (.ready (steps 1 (sample [.op .nop, .op .nop]))) ∧
    runUntilLine 9 5 (sample [.op .nop, .op .nop]) = .ended (.ready (steps 2 (sample [.op .nop, .op .nop]))) := by decide

end Sys2Proof.Tests
end

/-! PROOFS. The state and what every step keeps of it (10_state.md). First the rules the proofs use: launch, the step at an
entry, the pc and the program index, register 0 at handler entry, what a step does to memory and to the diagnostics, and
the invariant along a run. Then the statements. -/

namespace Sys2Proof.Machine

/-! ## Launch -/

section
variable (p : LaunchParams) (prog : List Entry) (diags : List Diagnostic)

@[simp] theorem launch_readReg_zero : (State.launch p prog diags).readReg zeroReg = 0#32 := rfl

/-- Registers 1 to 31 start as `INIT_REGS` (10_state.md R35). -/
theorem launch_readReg_succ (i : Fin 31) :
    (State.launch p prog diags).readReg (BitVec.ofNat 5 (i.val + 1)) = p.initRegs[i.val] := by
  have hi : (i.val + 1) % 32 = i.val + 1 := by omega
  simp [State.readReg, State.launch, hi]

end

/-- Storing the cells of a canonical memory after a part of it, in order, gives the whole of it. -/
theorem Memory.foldl_write_of_wf_append (cells : List Host.Cell) :
    ∀ m : Memory, Memory.wf (m ++ cells) →
      cells.foldl (fun m c => if c.1 < memSize then m.write c.1 c.2 else m) m = m ++ cells := by
  induction cells with
  | nil => simp
  | cons c cells ih =>
    intro m hwf
    have hc : c.1 < memSize ∧ c.2 ≠ Memory.unlisted := hwf.2 c (by simp)
    have hbelow : ∀ d ∈ m, d.1 < c.1 := fun d hd => (List.pairwise_append.1 hwf.1).2.2 d hd c (by simp)
    rw [List.foldl_cons, if_pos hc.1, Memory.write_after hc.2 hbelow, ih _ (by simpa using hwf)]
    simp

/-- Cells in canonical form are the memory they build. -/
theorem Memory.ofCells_of_wf {cells : List Host.Cell} (h : Memory.wf cells) : Memory.ofCells cells = cells :=
  Memory.foldl_write_of_wf_append cells [] h

/-- An engine launched on a well-formed program meets the invariant. -/
theorem launch_inv (p : LaunchParams) {prog : List Entry} (h : wellFormedProgram prog) (diags : List Diagnostic) :
    (State.launch p prog diags).Inv where
  zero := launch_readReg_zero ..
  normal := rfl
  mem := Memory.wf_ofCells _
  prog := h

/-! ## The step at an entry -/

/-- The top-level step at an aligned pc with an entry there. -/
theorem step_of_entry {s : State} {e : Entry} (ha : s.pc.toNat % 4 = 0) (he : s.prog[s.pc.toNat / 4]? = some e) :
    step s = onNext State.forceZero (execRecord e.record (s.fetched e)) := by
  rw [step, topStep, fetch_entry_iff.2 ⟨ha, e, he, rfl, rfl⟩]

/-- The nested step at an aligned pc with an entry there. -/
theorem slotStep_of_entry {s : State} {e : Entry} (ha : s.pc.toNat % 4 = 0) (he : s.prog[s.pc.toNat / 4]? = some e) :
    slotStep s = onNext State.forceZero (slotExecRecord e.record (s.fetched e)) := by
  rw [slotStep, fetch_entry_iff.2 ⟨ha, e, he, rfl, rfl⟩]

/-- A record that is no transfer is dispatched alike in and out of a delay slot. -/
theorem execRecord_eq_slotExecRecord {r : Record} (h : r.isTransfer = false) (s : State) :
    execRecord r s = slotExecRecord r s := by
  cases r with
  | op i => exact exec_of_not_transfer h s
  | unsup => rfl
  | invalid => rfl

/-! ## The pc and the program index -/

theorem halted_eq_false_iff {s : State} : s.halted = false ↔ s.pc.toNat < 4 * s.prog.length := by
  rw [← Bool.not_eq_true, halted_iff, Nat.not_le]

/-- The index of an entry of an admitted program is below `N_MAX`. -/
theorem index_lt_nMax {prog : List Entry} {k : Nat} {e : Entry} (hw : wellFormedProgram prog)
    (he : prog[k]? = some e) : k < nMax :=
  Nat.lt_of_lt_of_le (List.getElem?_eq_some_iff.1 he).1 hw.1

/-- The pc advanced by 4 selects the next index: below `N_MAX` it does not wrap. -/
theorem nextIndex {pc : Word} (h : pc.toNat / 4 < nMax) : (pc + 4#32).toNat / 4 = pc.toNat / 4 + 1 := by
  have hpc : pc.toNat + 4 < 2 ^ 32 := by simp only [nMax] at h; omega
  rw [BitVec.toNat_add, BitVec.toNat_ofNat, Nat.mod_eq_of_lt (a := 4) (by decide), Nat.mod_eq_of_lt hpc]
  omega

/-- Bits 31 to 28 of a word below 2^28 are zero. -/
theorem highBits_eq_zero {w : Word} (h : w.toNat < 2 ^ 28) : w.extractLsb' 28 4 = 0#4 := by
  apply BitVec.eq_of_toNat_eq
  rw [BitVec.extractLsb'_toNat, Nat.shiftRight_eq_div_pow, Nat.div_eq_of_lt h]
  rfl

/-! ## Register 0 at handler entry -/

/-- A link before the delay slot writes register 31, and so leaves register 0 alone. -/
theorem enterSlot_readReg_zero (s : State) (x : Transfer) : (s.enterSlot x).readReg zeroReg = s.readReg zeroReg := by
  have hne : zeroReg ≠ linkReg := by decide
  rw [enterSlot_readReg, link_readReg, if_neg (fun h => hne h.2.2)]

/-! ## Memory -/

/-- A delay slot that holds no store leaves memory as it was. -/
theorem slotStep_mem {s t : State}
    (hs : ∀ d i, s.prog[s.pc.toNat / 4]? = some d → d.record = .op i → isStore i = false)
    (h : slotStep s = .next t) : t.mem = s.mem := by
  obtain ⟨-, d, u, hd, hu, -, rfl⟩ := slotStep_next_iff.1 h
  have hmem : u.mem = (s.fetched d).mem := slotExecRecord_mem (fun i => hs d i hd) hu
  simpa using hmem

/-! ## Diagnostics -/

/-- An instruction that is no transfer only appends diagnostics. -/
theorem StraightEffect.diags_prefix {s t : State} (h : StraightEffect s t) : s.diags <+: t.diags := by
  rcases h.reports with hr | ⟨k, -, hr⟩
  · exact ⟨_, hr.symm⟩
  · exact ⟨_, hr.symm⟩

/-- A record only appends diagnostics, its own and its delay slot's. -/
theorem execRecord_diags_prefix {r : Record} {s t : State} (h : execRecord r s = .next t) : s.diags <+: t.diags := by
  cases ht : r.isTransfer with
  | false =>
    obtain ⟨u, hu, heff⟩ := execRecord_straight ht s
    obtain rfl : t = u := by simpa [h] using hu
    exact heff.diags_prefix
  | true =>
    obtain ⟨x, hx⟩ := execRecord_of_transfer ht s
    rcases transfer_next_iff.1 (hx ▸ h) with ⟨-, rfl⟩ | ⟨-, u, hu, rfl⟩
    · exact List.prefix_append ..
    · obtain ⟨-, d, v, -, -, heff, rfl⟩ := slotStep_next_iff.1 hu
      simpa using heff.diags_prefix

/-- A step only appends diagnostics, and keeps the program store and the launch parameter. -/
theorem step_appends {s t : State} (h : step s = .next t) : s.diags <+: t.diags ∧ SameInstance s t := by
  rcases step_next_iff.1 h with ⟨-, rfl⟩ | ⟨-, e, u, -, hu, rfl⟩
  · exact ⟨List.prefix_rfl, rfl, rfl⟩
  · obtain ⟨hsame, -, -⟩ := execRecord_keeps hu
    have hdiags : (s.fetched e).diags <+: u.diags := execRecord_diags_prefix hu
    exact ⟨by simpa using hdiags, hsame.prog, hsame.linkTiming⟩

/-! ## Along a run -/

/-- What holds at the start of a run and is kept by every step holds in every state the run reaches. -/
theorem reaches_keeps {P : State → Prop} (hstep : ∀ s t, P s → step s = .next t → P t) {s t : State}
    (h : Reaches s t) (hs : P s) : P t := by
  induction h with
  | refl => exact hs
  | step _ h' ih => exact hstep _ _ ih h'

/-- A run only appends diagnostics, and keeps the program store and the launch parameter. -/
theorem reaches_appends {s t : State} (h : Reaches s t) : s.diags <+: t.diags ∧ SameInstance s t := by
  induction h with
  | refl => exact ⟨List.prefix_rfl, rfl, rfl⟩
  | step _ h' ih =>
    obtain ⟨hdiags, hsame⟩ := ih
    obtain ⟨hdiags', hsame'⟩ := step_appends h'
    exact ⟨hdiags.trans hdiags', hsame'.prog.trans hsame.prog, hsame'.linkTiming.trans hsame.linkTiming⟩

/-! ## The statements -/

/-- Settles O10. A halted step answers the same state; any other forces register 0 as its last action, and no record
changes the program store, breaks the form of memory, or leaves the flag set. -/
theorem stepKeepsInvariant : Obligations.StepKeepsInvariant := by
  intro s t hs h
  rcases step_next_iff.1 h with ⟨-, rfl⟩ | ⟨-, e, u, -, hu, rfl⟩
  · exact hs
  · obtain ⟨hsame, hmem, hnormal⟩ := execRecord_keeps hu
    exact {
      zero := forceZero_readReg_zero u
      normal := hnormal hs.normal
      mem := hmem hs.mem
      prog := hsame.prog ▸ hs.prog }

/-- Settles O8: the memory and the program of reset are empty. -/
theorem resetStateMeetsInvariant : Obligations.ResetStateMeetsInvariant where
  zero := by decide
  normal := rfl
  mem := Memory.wf_nil
  prog := by decide

/-- Settles O9: a constructed engine is a launch on the front end's program, which is well formed. -/
theorem constructedEngineMeetsInvariant : Obligations.ConstructedEngineMeetsInvariant := by
  intro p text s h
  obtain ⟨out, hout, rfl⟩ := construct_ok_iff.1 h
  exact launch_inv p (frontEnd_wellFormed hout) out.2

/-- Every state a constructed engine reaches meets the invariant. -/
theorem construct_reaches_inv {p : LaunchParams} {text : Text} {s t : State} (hc : State.construct p text = .ok s)
    (hr : Reaches s t) : t.Inv :=
  reaches_keeps stepKeepsInvariant hr (constructedEngineMeetsInvariant p text s hc)

/-- Settles O6, field by field of the launch. -/
theorem constructionGivesResetValues : Obligations.ConstructionGivesResetValues := by
  intro p text s h
  obtain ⟨out, hout, rfl⟩ := construct_ok_iff.1 h
  exact ⟨rfl, rfl, launch_readReg_zero .., fun i => launch_readReg_succ .., Memory.ofCells_of_wf, rfl, out, hout, rfl, rfl⟩

/-- Settles O11; the last clause is the invariant's. -/
theorem registerZeroIsForcedAfterEveryDispatch : Obligations.RegisterZeroIsForcedAfterEveryDispatch :=
  ⟨fun _ _ ha he => ⟨step_of_entry ha he, slotStep_of_entry ha he⟩, readReg_forceZero, readReg_writeReg_self,
    fun _ _ _ _ hc hr => (construct_reaches_inv hc hr).zero⟩

/-- Settles O12: the invariant gives register 0 between steps, and neither a fetch nor a link writes it. -/
theorem registerZeroReadsZero : Obligations.RegisterZeroReadsZero := by
  intro p text s t hc hr
  have hzero : t.readReg zeroReg = 0#32 := (construct_reaches_inv hc hr).zero
  refine ⟨hzero, fun e => ⟨hzero, fun x d => ?_⟩⟩
  rw [fetched_readReg, enterSlot_readReg_zero, fetched_readReg, hzero]

/-- Settles O22: outside a delay slot the transfer ran the nested step, whose fetch set the record, and nothing after it
changes the record. -/
theorem transferStepRecordsTheDelaySlot : Obligations.TransferStepRecordsTheDelaySlot := by
  intro s t e hnormal hw ha he htr h
  rw [step_of_entry ha he, onNext_next_iff] at h
  obtain ⟨u, hu, rfl⟩ := h
  obtain ⟨x, hx⟩ := execRecord_of_transfer htr (s.fetched e)
  rcases transfer_next_iff.1 (hx ▸ hu) with ⟨hslot, -⟩ | ⟨-, v, hv, rfl⟩
  · simp [hnormal] at hslot
  · obtain ⟨-, d, w, hd, -, heff, rfl⟩ := slotStep_next_iff.1 hv
    have hnext : ((s.fetched e).enterSlot x).pc.toNat / 4 = s.pc.toNat / 4 + 1 := by
      rw [enterSlot_pc, fetched_pc, nextIndex (index_lt_nMax hw he)]
    rw [enterSlot_prog, fetched_prog, hnext] at hd
    refine ⟨d, hd, ?_, ?_, rfl⟩
    · simp only [forceZero_curIndex, leaveSlot_curIndex, heff.curIndex, fetched_curIndex, hnext]
    · simp only [forceZero_curLine, leaveSlot_curLine, heff.curLine, fetched_curLine]

/-- Settles O43. What a step executes is the entry the pc selects, and the delay slot's where that entry is a transfer
outside a delay slot; a nested transfer only reports. -/
theorem onlyStoresChangeMemory : Obligations.OnlyStoresChangeMemory := by
  intro s t hs h
  rcases step_next_iff.1 h with ⟨-, rfl⟩ | ⟨-, e, u, he, hu, rfl⟩
  · rfl
  · obtain ⟨hentry, hslot⟩ := hs e he
    cases htr : e.record.isTransfer with
    | false =>
      rw [execRecord_eq_slotExecRecord htr] at hu
      have hmem : u.mem = (s.fetched e).mem := slotExecRecord_mem hentry hu
      simpa using hmem
    | true =>
      obtain ⟨x, hx⟩ := execRecord_of_transfer htr (s.fetched e)
      rcases transfer_next_iff.1 (hx ▸ hu) with ⟨-, rfl⟩ | ⟨hnormal, v, hv, rfl⟩
      · rfl
      · have hmem := slotStep_mem (by simpa using hslot htr hnormal) hv
        simpa using hmem

/-- Settles O46: what `reaches_appends` says of a run. -/
theorem runsAppendDiagnosticsAndKeepTheProgram : Obligations.RunsAppendDiagnosticsAndKeepTheProgram := by
  intro s t hr
  obtain ⟨⟨more, hmore⟩, hsame⟩ := reaches_appends hr
  exact ⟨⟨more, hmore.symm⟩, hsame.prog, hsame.linkTiming⟩

/-- Settles O47: 4 * N_MAX is below 2^28. -/
theorem inBoundsPcHasZeroHighBits : Obligations.InBoundsPcHasZeroHighBits := by
  intro s hw
  refine ⟨halted_eq_false_iff, fun h => ?_⟩
  have hlt : s.pc.toNat < 2 ^ 28 := by
    have hpc := halted_eq_false_iff.1 h
    have hlen : s.prog.length ≤ 0x3FFFFFF := hw.1
    omega
  exact ⟨hlt, highBits_eq_zero hlt⟩

/-- Settles O54: a check of each name and of each index, 32 of either. -/
theorem registersResolveByNameAndIndex : Obligations.RegistersResolveByNameAndIndex := by
  constructor
  · decide
  · decide

/-- Settles O59: the snapshot maps the register file, element by element. -/
theorem snapshotShowsSignedRegisters : Obligations.SnapshotShowsSignedRegisters := by
  intro s
  have hlen : s.snapshot.length = 32 := by simp [State.snapshot]
  refine ⟨hlen, fun r => ?_⟩
  rw [List.getElem?_eq_getElem (hlen ▸ r.isLt)]
  simp [State.snapshot, State.readReg]

end Sys2Proof.Machine

/-! PROOFS. Data memory and the instructions that reach it (20_memory.md, 46_memory_ops.md). First the rules the proofs use:
the range check, the integer and the wrapped effective address, the bytes of a word, word and byte accesses, and what a load
and a store do on either side of the range check. Then the statements. -/

namespace Sys2Proof.Machine

/-! ## The range check and the effective address -/

/-- The range check of a word access (20_memory.md R52). -/
theorem inRange_four_iff {ea : Int} : inRange ea 4 = true ↔ 0 ≤ ea ∧ ea + 3 < 2 ^ 24 := by
  rw [inRange_iff, memSize]
  omega

/-- The range check of a byte access (20_memory.md R52). -/
theorem inRange_one_iff {ea : Int} : inRange ea 1 = true ↔ 0 ≤ ea ∧ ea < 2 ^ 24 := by
  rw [inRange_iff, memSize]
  omega

/-- The last byte of an access in range lies in memory. -/
theorem inRange_toNat_add_le {ea : Int} {n : Nat} (h : inRange ea n = true) : ea.toNat + n ≤ memSize := by
  have := inRange_iff.1 h
  omega

/-- The effective address lies less than 2^31 + 2^15 away from 0. -/
theorem effectiveAddress_bounds (base : Word) (off : Field16) :
    -(2 ^ 31 + 2 ^ 15) ≤ effectiveAddress base off ∧ effectiveAddress base off < 2 ^ 31 + 2 ^ 15 := by
  have hoff : (off.signExtend 32).toInt = off.toInt := BitVec.toInt_signExtend_of_le (by decide)
  have := BitVec.le_toInt base
  have := BitVec.toInt_lt (x := base)
  have := BitVec.le_toInt off
  have := BitVec.toInt_lt (x := off)
  rw [effectiveAddress, hoff]
  omega

/-- The wrapped sum is the effective address modulo 2^32. -/
theorem wrappedAddress_toNat (base : Word) (off : Field16) :
    ((base + off.signExtend 32).toNat : Int) = effectiveAddress base off % 2 ^ 32 := by
  have hsum : BitVec.ofInt 32 (effectiveAddress base off) = base + off.signExtend 32 := by
    rw [effectiveAddress, BitVec.ofInt_add, BitVec.ofInt_toInt, BitVec.ofInt_toInt]
  rw [← hsum, BitVec.toNat_ofInt]
  omega

/-! ## The bytes of a word -/

/-- A word is determined by its four bytes. -/
theorem word_eq_of_bytes {v w : Word} (h : ∀ k, k < 4 → v.extractLsb' (8 * k) 8 = w.extractLsb' (8 * k) 8) : v = w := by
  apply BitVec.eq_of_getLsbD_eq
  intro i hi
  have hbit := congrArg (fun b => b.getLsbD (i % 8)) (h (i / 8) (by omega))
  have hsplit : 8 * (i / 8) + i % 8 = i := Nat.div_add_mod i 8
  have hlt : i % 8 < 8 := Nat.mod_lt i (by decide)
  simpa [hsplit, hlt] using hbit

/-- Byte `k` of a word read is the byte at `a + k` (20_memory.md R55). -/
theorem Memory.extract_read4 (m : Memory) (a : Nat) {k : Nat} (hk : k < 4) :
    (m.read4 a).extractLsb' (8 * k) 8 = m.read (a + k) := by
  rw [Memory.read4]
  match k, hk with
  | 0, _ =>
    rw [extract_append_low _ _ _ _ (by decide)]
    exact extract_all _
  | 1, _ =>
    rw [extract_append_high _ _ _ _ (by decide), extract_append_low _ _ _ _ (by decide)]
    exact extract_all _
  | 2, _ =>
    rw [extract_append_high _ _ _ _ (by decide), extract_append_high _ _ _ _ (by decide),
      extract_append_low _ _ _ _ (by decide)]
    exact extract_all _
  | 3, _ =>
    rw [extract_append_high _ _ _ _ (by decide), extract_append_high _ _ _ _ (by decide),
      extract_append_high _ _ _ _ (by decide)]
    exact extract_all _

/-- Byte `k` of a stored word stands at `a + k` (20_memory.md R55). -/
theorem Memory.read_write4_byte {m : Memory} (hm : m.wf) {a : Nat} (ha : a + 4 ≤ memSize) (v : Word) {k : Nat}
    (hk : k < 4) : (m.write4 a v).read (a + k) = v.extractLsb' (8 * k) 8 := by
  rw [Memory.read_write4 hm ha]
  interval_cases k <;> simp

/-- A word store leaves every byte but its four alone. -/
theorem Memory.read_write4_outside {m : Memory} (hm : m.wf) {a : Nat} (ha : a + 4 ≤ memSize) (v : Word) {b : Nat}
    (hb : b < a ∨ a + 4 ≤ b) : (m.write4 a v).read b = m.read b := by
  rw [Memory.read_write4 hm ha, if_neg (by omega), if_neg (by omega), if_neg (by omega), if_neg (by omega)]

/-- A byte store leaves every other byte alone. -/
theorem Memory.read_write1_ne {m : Memory} (hm : m.wf) {a b : Nat} (v : Word) (hb : b ≠ a) :
    (m.write1 a v).read b = m.read b := by
  rw [Memory.read_write1 hm, if_neg hb]

theorem Memory.read_write1_self {m : Memory} (hm : m.wf) (a : Nat) (v : Word) :
    (m.write1 a v).read a = v.extractLsb' 0 8 := by
  rw [Memory.read_write1 hm, if_pos rfl]

/-- A word reads back as it was stored. -/
theorem Memory.read4_write4 {m : Memory} (hm : m.wf) {a : Nat} (ha : a + 4 ≤ memSize) (v : Word) :
    (m.write4 a v).read4 a = v :=
  word_eq_of_bytes fun _ hk => by rw [Memory.extract_read4 _ _ hk, Memory.read_write4_byte hm ha v hk]

/-! ## Loads and stores, on either side of the range check -/

section
variable {s : State} {rt base : RegIdx} {off : Field16} {n : Nat}

theorem load_writesOnly_inRange {f : Memory → Nat → Word}
    (h : inRange (effectiveAddress (s.readReg base) off) n = true) :
    WritesOnly s (s.load rt base off n f) rt (f s.mem (effectiveAddress (s.readReg base) off).toNat) [] := by
  rw [load_inRange h]
  exact writesOnly_writeReg ..

theorem load_writesOnly_outOfRange {f : Memory → Nat → Word}
    (h : ¬ inRange (effectiveAddress (s.readReg base) off) n = true) :
    WritesOnly s (s.load rt base off n f) rt 0#32 [.invalidMemoryLocation] := by
  rw [load_outOfRange (Bool.eq_false_of_not_eq_true h)]
  exact writesOnly_diag_writeReg ..

/-- A store writes no register. -/
theorem store_sameRegisters (f : Memory → Nat → Word → Memory) : SameRegisters s (s.store rt base off n f) := by
  intro r
  cases h : inRange (effectiveAddress (s.readReg base) off) n with
  | true => rw [store_inRange h]; rfl
  | false => rw [store_outOfRange h]; rfl

theorem store_mem_inRange {f : Memory → Nat → Word → Memory}
    (h : inRange (effectiveAddress (s.readReg base) off) n = true) :
    (s.store rt base off n f).mem = f s.mem (effectiveAddress (s.readReg base) off).toNat (s.readReg rt) := by
  rw [store_inRange h]

theorem store_reports_inRange {f : Memory → Nat → Word → Memory}
    (h : inRange (effectiveAddress (s.readReg base) off) n = true) : Reports s (s.store rt base off n f) [] := by
  rw [store_inRange h]
  simp [Reports]

theorem store_rejected {f : Memory → Nat → Word → Memory}
    (h : ¬ inRange (effectiveAddress (s.readReg base) off) n = true) :
    Reports s (s.store rt base off n f) [.invalidMemoryLocation] ∧ SameMemory s (s.store rt base off n f) := by
  rw [store_outOfRange (Bool.eq_false_of_not_eq_true h)]
  exact ⟨rfl, fun _ => rfl⟩

end

/-! ## The statements -/

/-- Settles O31: in range a load writes what the memory access reads, whose bytes `Memory.extract_read4` gives. -/
theorem loadResults : Obligations.LoadResults := by
  intro s rt base off ea
  refine ⟨⟨_, s.mem.read4 ea.toNat, rfl, ?word⟩, ⟨_, rfl, ?signedByte⟩, ⟨_, rfl, ?unsignedByte⟩⟩
  case word =>
    split
    next h =>
      exact ⟨load_writesOnly_inRange (inRange_four_iff.2 h), fun k hk => Memory.extract_read4 s.mem ea.toNat hk⟩
    next h => exact load_writesOnly_outOfRange (mt inRange_four_iff.1 h)
  case signedByte =>
    split
    next h => exact load_writesOnly_inRange (inRange_one_iff.2 h)
    next h => exact load_writesOnly_outOfRange (mt inRange_one_iff.1 h)
  case unsignedByte =>
    split
    next h =>
      rw [BitVec.ofNat_toNat]
      exact load_writesOnly_inRange (inRange_one_iff.2 h)
    next h => exact load_writesOnly_outOfRange (mt inRange_one_iff.1 h)

/-- Settles O32: in range a store writes the bytes of its access and no others. -/
theorem storeResults : Obligations.StoreResults := by
  intro s rt base off hm ea
  refine ⟨⟨_, rfl, ?wordControl, store_sameRegisters _, ?word⟩, ⟨_, rfl, ?byteControl, store_sameRegisters _, ?byte⟩⟩
  case wordControl => exact (straight_store _ _ _ _ _ _ fun _ _ _ hm ha => Memory.wf_write4 hm ha _).toSameControl
  case byteControl => exact (straight_store _ _ _ _ _ _ fun _ _ _ hm ha => Memory.wf_write1 hm ha _).toSameControl
  case word =>
    split
    next h =>
      have hr : inRange ea 4 = true := inRange_four_iff.2 h
      have ha : ea.toNat + 4 ≤ memSize := inRange_toNat_add_le hr
      rw [store_mem_inRange hr]
      exact ⟨store_reports_inRange hr, fun k hk => Memory.read_write4_byte hm ha _ hk,
        fun a hout => Memory.read_write4_outside hm ha _ hout⟩
    next h => exact store_rejected (mt inRange_four_iff.1 h)
  case byte =>
    split
    next h =>
      have hr : inRange ea 1 = true := inRange_one_iff.2 h
      rw [store_mem_inRange hr]
      exact ⟨store_reports_inRange hr, Memory.read_write1_self hm _ _,
        fun a hne => Memory.read_write1_ne hm _ hne⟩
    next h => exact store_rejected (mt inRange_one_iff.1 h)

/-- Settles O40: the wrapped sum is the effective address modulo 2^32, and a negative address wraps to one far above 2^24,
since the address is at least -(2^31 + 2^15). -/
theorem wrappedAddressGivesTheSameVerdict : Obligations.WrappedAddressGivesTheSameVerdict := by
  intro base off n hn wrapped
  have hwrap : (wrapped : Int) = effectiveAddress base off % 2 ^ 32 := wrappedAddress_toNat base off
  obtain ⟨hlow, hhigh⟩ := effectiveAddress_bounds base off
  rw [inRange_iff, memSize]
  omega

/-- Settles O41: the store leaves the base register as it was, so the load reads the word where it was stored. -/
theorem storeThenLoadReturnsTheWord : Obligations.StoreThenLoadReturnsTheWord := by
  intro s rt rd base off hm h
  have hbase : (s.store rt base off 4 Memory.write4).readReg base = s.readReg base := store_sameRegisters _ base
  have ha : (effectiveAddress (s.readReg base) off).toNat + 4 ≤ memSize :=
    inRange_toNat_add_le h
  refine ⟨_, _, rfl, rfl, ?_⟩
  rw [load_inRange (by rwa [hbase]), readReg_writeReg_self, hbase, store_mem_inRange h, Memory.read4_write4 hm ha]

/-- Settles O42: a word read is its four bytes, and each access writes the bytes of its own addresses. -/
theorem mixedWidthAccessesAgree : Obligations.MixedWidthAccessesAgree := by
  intro m a k v hm ha hk
  refine ⟨Memory.read_write4_byte hm ha v hk, ?_, fun j hj hne => ?_⟩
  · rw [Memory.extract_read4 _ _ hk, Memory.read_write1_self hm]
  · rw [Memory.extract_read4 _ _ hj, Memory.extract_read4 _ _ hj, Memory.read_write1_ne hm v (by omega)]

end Sys2Proof.Machine

/-! PROOFS. The reference words (30_encoding.md section 6). First the rules the proofs use: the row of each instruction, the
word of each row's fields, and what the decoder answers. Then the statements. -/

namespace Sys2Proof

/-! ## The row of an instruction -/

namespace Laws.EncodeHitsRow

/-- Every instruction's word hits a row of the table, which builds the instruction back unless a literal overflowed. -/
theorem statement (i : Instr) : Statement i := by
  cases i
  exacts [nop, sll .., srl .., sra .., sllv .., srlv .., srav .., jr .., jalr .., movz .., movn .., addu .., subu ..,
    and .., or .., xor .., nor .., slt .., sltu .., bltz .., bgez .., j .., jal .., beq .., bne .., blez .., bgtz ..,
    addiu .., slti .., sltiu .., andi .., ori .., xori .., lui .., lb .., lw .., lbu .., sb .., sw ..]

end Laws.EncodeHitsRow

/-! ## Which row a word hits -/

/-- The rows after that of `nop` are pairwise apart: `nop` and `sll` are the only two rows that share a word. -/
theorem rows_after_nop_apart :
    (specialRows ++ transferRows ++ immediateRows).Pairwise (fun p q => p.apart q = true) := by decide

theorem nop_hits_iff {p : OpcodeRow} (hp : p ∈ nopRow) (w : Word) : p.hits w = true ↔ w = 0#32 := by
  obtain rfl := List.mem_singleton.1 hp
  simpa [OpcodeRow.hits] using Iff.of_eq (congrArg (· = 0#32) (BitVec.and_allOnes (x := w)))

/-- The only rows the zero word hits are those of `nop` and `sll` (30_encoding.md R113). -/
theorem build_zero_of_hits : ∀ r ∈ opcodeTable, r.hits 0#32 = true →
    r.build 0#32 = .nop ∨ r.build 0#32 = .sll 0#5 0#5 0#5 := by decide

/-- A row that a nonzero word hits is the first one it hits. -/
theorem find_of_hits {r : OpcodeRow} {w : Word} (hr : r ∈ opcodeTable) (hw : r.hits w = true) (h0 : w ≠ 0#32) :
    opcodeTable.find? (fun p => p.hits w) = some r := by
  have hnop : ∀ p ∈ nopRow, ¬ p.hits w = true := fun p hp h => h0 ((nop_hits_iff hp w).1 h)
  have htable : opcodeTable = nopRow ++ (specialRows ++ transferRows ++ immediateRows) := by simp [opcodeTable]
  rw [htable] at hr ⊢
  rw [List.find?_append, List.find?_eq_none.2 hnop, Option.none_or]
  rcases List.mem_append.1 hr with hr | hr
  · exact absurd hw (hnop r hr)
  · exact find_hit rows_after_nop_apart hr hw

/-! ## What the decoder answers -/

theorem decodeWord_of_find_some {w : Word} {r : OpcodeRow} (h : opcodeTable.find? (fun p => p.hits w) = some r) :
    decodeWord w = .record (.op (r.build w)) := by
  rw [decodeWord, h]

theorem decodeWord_of_find_none {w : Word} (h : opcodeTable.find? (fun p => p.hits w) = none) :
    decodeWord w = if isJalrWord w then .refused .jalrLinksElsewhere else .record .unsup := by
  rw [decodeWord, h]

/-- A word that decodes to an instruction hits a row that builds it. -/
theorem row_of_decodeWord {w : Word} {i : Instr} (h : decodeWord w = .record (.op i)) :
    ∃ r ∈ opcodeTable, r.hits w = true ∧ r.build w = i := by
  cases hf : opcodeTable.find? (fun p => p.hits w) with
  | some r =>
    rw [decodeWord_of_find_some hf] at h
    exact ⟨r, List.mem_of_find?_eq_some hf, (List.find?_eq_some_iff_append.1 hf).1, by simpa using h⟩
  | none =>
    rw [decodeWord_of_find_none hf] at h
    split at h <;> simp at h

/-! ## The word of a row's fields -/

section
variable {w mask pattern : Word}

/-- A field under a mask that is all ones there is the pattern's. -/
theorem extract_eq_of_and (h : w &&& mask = pattern) {start len : Nat}
    (hm : mask.extractLsb' start len = BitVec.allOnes len) :
    w.extractLsb' start len = pattern.extractLsb' start len := by
  have hfield := extract_of_and h start len
  rwa [hm, BitVec.and_allOnes] at hfield

/-- A word that hits an R-type row with three register operands, from its fields. -/
theorem wordR_of_mask_regs (hop : pattern.extractLsb' 26 6 = 0x00#6) (h : w &&& 0xFC0007FF#32 = pattern) :
    wordR (fieldRs w) (fieldRt w) (fieldRd w) (fieldSa pattern) (pattern.extractLsb' 0 6) = w := by
  rw [fieldSa, ← extract_eq_of_and h (by decide), ← extract_eq_of_and h (by decide)]
  exact wordR_fields ((extract_eq_of_and h (by decide)).trans hop)

/-- A word that hits the row of an immediate shift, from its fields. -/
theorem wordR_of_mask_shift (hop : pattern.extractLsb' 26 6 = 0x00#6) (h : w &&& 0xFFE0003F#32 = pattern) :
    wordR (fieldRs pattern) (fieldRt w) (fieldRd w) (fieldSa w) (pattern.extractLsb' 0 6) = w := by
  rw [fieldRs, ← extract_eq_of_and h (by decide), ← extract_eq_of_and h (by decide)]
  exact wordR_fields ((extract_eq_of_and h (by decide)).trans hop)

/-- A word that hits the row of a register jump, from its fields. -/
theorem wordR_of_mask_jump (hop : pattern.extractLsb' 26 6 = 0x00#6) (h : w &&& 0xFC1FFFFF#32 = pattern) :
    wordR (fieldRs w) (fieldRt pattern) (fieldRd pattern) (fieldSa pattern) (pattern.extractLsb' 0 6) = w := by
  rw [fieldRt, fieldRd, fieldSa, ← extract_eq_of_and h (by decide), ← extract_eq_of_and h (by decide),
    ← extract_eq_of_and h (by decide), ← extract_eq_of_and h (by decide)]
  exact wordR_fields ((extract_eq_of_and h (by decide)).trans hop)

/-- A word that hits a plain I-type row, from its fields. -/
theorem wordI_of_mask_opcode (h : w &&& 0xFC000000#32 = pattern) :
    wordI (pattern.extractLsb' 26 6) (fieldRs w) (fieldRt w) (fieldImm w) = w := by
  rw [← extract_eq_of_and h (by decide)]
  exact wordI_fields w

/-- A word that hits the row of a branch that compares with zero, from its fields. -/
theorem wordI_of_mask_branch (h : w &&& 0xFC1F0000#32 = pattern) :
    wordI (pattern.extractLsb' 26 6) (fieldRs w) (fieldRt pattern) (fieldImm w) = w := by
  rw [fieldRt, ← extract_eq_of_and h (by decide), ← extract_eq_of_and h (by decide)]
  exact wordI_fields w

/-- A word that hits the row of `lui`, from its fields. -/
theorem wordI_of_mask_upper (h : w &&& 0xFFE00000#32 = pattern) :
    wordI (pattern.extractLsb' 26 6) (fieldRs pattern) (fieldRt w) (fieldImm w) = w := by
  rw [fieldRs, ← extract_eq_of_and h (by decide), ← extract_eq_of_and h (by decide)]
  exact wordI_fields w

/-- A word that hits the row of a jump, from its fields. -/
theorem wordJ_of_mask (h : w &&& 0xFC000000#32 = pattern) : wordJ (pattern.extractLsb' 26 6) (fieldIndex w) = w := by
  rw [← extract_eq_of_and h (by decide)]
  exact wordJ_fields w

end

/-! ## The word of what a row builds, one conjunct for each row in table order -/

section
variable (w : Word)

theorem encode_build_specialRows : ∀ r ∈ specialRows, r.hits w = true → encode (r.build w) = w := by
  simp only [specialRows, List.forall_mem_cons, OpcodeRow.hits, beq_iff_eq]
  exact ⟨wordR_of_mask_shift rfl, wordR_of_mask_shift rfl, wordR_of_mask_shift rfl,
    wordR_of_mask_regs rfl, wordR_of_mask_regs rfl, wordR_of_mask_regs rfl,
    wordR_of_mask_jump rfl, wordR_of_mask_jump rfl,
    wordR_of_mask_regs rfl, wordR_of_mask_regs rfl, wordR_of_mask_regs rfl, wordR_of_mask_regs rfl,
    wordR_of_mask_regs rfl, wordR_of_mask_regs rfl, wordR_of_mask_regs rfl, wordR_of_mask_regs rfl,
    wordR_of_mask_regs rfl, wordR_of_mask_regs rfl, List.forall_mem_nil _⟩

theorem encode_build_transferRows : ∀ r ∈ transferRows, r.hits w = true → encode (r.build w) = w := by
  simp only [transferRows, List.forall_mem_cons, OpcodeRow.hits, beq_iff_eq]
  exact ⟨wordI_of_mask_branch, wordI_of_mask_branch, wordJ_of_mask, wordJ_of_mask, wordI_of_mask_opcode,
    wordI_of_mask_opcode, wordI_of_mask_branch, wordI_of_mask_branch, List.forall_mem_nil _⟩

theorem encode_build_immediateRows : ∀ r ∈ immediateRows, r.hits w = true → encode (r.build w) = w := by
  simp only [immediateRows, List.forall_mem_cons, OpcodeRow.hits, beq_iff_eq]
  exact ⟨wordI_of_mask_opcode, wordI_of_mask_opcode, wordI_of_mask_opcode, wordI_of_mask_opcode, wordI_of_mask_opcode,
    wordI_of_mask_opcode, wordI_of_mask_upper, wordI_of_mask_opcode, wordI_of_mask_opcode, wordI_of_mask_opcode,
    wordI_of_mask_opcode, wordI_of_mask_opcode, List.forall_mem_nil _⟩

/-- The instruction a row builds from a word that hits it has that word. -/
theorem encode_build {r : OpcodeRow} (hr : r ∈ opcodeTable) (h : r.hits w = true) : encode (r.build w) = w := by
  simp only [opcodeTable, List.mem_append] at hr
  rcases hr with ((hr | hr) | hr) | hr
  · obtain rfl := (nop_hits_iff hr w).1 h
    obtain rfl := List.mem_singleton.1 hr
    rfl
  · exact encode_build_specialRows w r hr h
  · exact encode_build_transferRows w r hr h
  · exact encode_build_immediateRows w r hr h

/-- No row sets the overflow bit. -/
theorem build_ovf : ∀ r ∈ opcodeTable, (r.build w).ovf = false := by
  simp [opcodeTable, nopRow, specialRows, transferRows, immediateRows, Instr.ovf]

end

/-! ## The `jalr` words (30_encoding.md R114; log 7) -/

/-- What all `jalr` words share, as a row: the fixed bits that `isJalrWord` tests. -/
def jalrWords : OpcodeRow := ⟨"jalr", 0xFC1F07FF#32, 0x00000009#32, fun w => .jalr (fieldRs w)⟩

theorem isJalrWord_eq_hits (w : Word) : isJalrWord w = jalrWords.hits w := rfl

/-- No `jalr` word hits any row but that of `jalr`. -/
theorem apart_jalrWords : ∀ r ∈ opcodeTable,
    r.apart jalrWords = true ∨ r.mask = 0xFC1FFFFF#32 ∧ r.pattern = wordR 0#5 0#5 31#5 0#5 0x09#6 := by decide

theorem isJalrWord_wordR (rs rd : RegIdx) : isJalrWord (wordR rs 0#5 rd 0#5 0x09#6) = true := by
  have h := wordR_and rs 0#5 rd 0#5 0x09#6 0#5 31#5 0#5 31#5 63#6
  rw [and_zeros, and_zeros] at h
  exact beq_iff_eq.2 h

/-- A row that a `jalr` word hits is the row of `jalr`, and so the word links register 31. -/
theorem rd_of_hits_jalrWord {r : OpcodeRow} (hr : r ∈ opcodeTable) {rs rd : RegIdx}
    (h : r.hits (wordR rs 0#5 rd 0#5 0x09#6) = true) : rd = 31#5 := by
  rcases apart_jalrWords r hr with hapart | ⟨hmask, hpattern⟩
  · have hjalr : jalrWords.hits (wordR rs 0#5 rd 0#5 0x09#6) = true :=
      (isJalrWord_eq_hits _).symm.trans (isJalrWord_wordR rs rd)
    exact absurd ⟨h, hjalr⟩ (not_both_hit hapart _)
  · rw [OpcodeRow.hits, hmask, hpattern, wordR_mask_jump, beq_iff_eq] at h
    simpa using congrArg fieldRd h

/-! ## The statements -/

/-- Settles O2. The instruction's row is the first one its word hits, but for the zero word, which is also a word of `sll`:
that is the instruction `wellFormed` leaves out. -/
theorem decodeOfEncodeIsIdentity : Obligations.DecodeOfEncodeIsIdentity := by
  intro i hwf
  obtain ⟨hovf, hsll⟩ : i.ovf = false ∧ i ≠ .sll 0#5 0#5 0#5 := by simpa [Instr.wellFormed] using hwf
  obtain ⟨r, hr, -, hhits, hbuild⟩ := Laws.EncodeHitsRow.statement i
  have hi : r.build (encode i) = i := hbuild hovf
  by_cases h0 : encode i = 0#32
  · rw [h0] at hhits hi
    rcases build_zero_of_hits r hr hhits with hnop | hzero
    · rw [← hi, hnop]
      rfl
    · exact absurd (hi.symm.trans hzero) hsll
  · rw [decodeWord_of_find_some (find_of_hits hr hhits h0), hi]

/-- Settles O3. The row that built the instruction fixes every bit of the word that no operand carries; and `sll $0, $0, 0` is
built from no word, since its word is that of `nop`. -/
theorem encodeOfDecodeIsIdentity : Obligations.EncodeOfDecodeIsIdentity := by
  intro w i h
  obtain ⟨r, hr, hhits, rfl⟩ := row_of_decodeWord h
  have hw : encode (r.build w) = w := encode_build w hr hhits
  have hsll : r.build w ≠ .sll 0#5 0#5 0#5 := by
    intro hi
    have h0 : w = 0#32 := by rw [← hw, hi]; rfl
    rw [hi, h0] at h
    exact absurd h (by decide)
  exact ⟨hw, by simp [Instr.wellFormed, build_ovf w r hr, hsll]⟩

/-- Settles O4: the decoder's search of the table is for the first row the word hits. -/
theorem wordDecodesByFirstMatchingRow : Obligations.WordDecodesByFirstMatchingRow := by
  refine ⟨fun w earlier later r htable hearlier hr => ?_, fun w hnone => ?_, fun w i h => ?_⟩
  · have hmiss : ∀ p ∈ earlier, (!p.hits w) = true := by simpa [OpcodeRow.hits] using hearlier
    have hhit : r.hits w = true := by simpa [OpcodeRow.hits] using hr
    exact decodeWord_of_find_some (List.find?_eq_some_iff_append.2 ⟨hhit, earlier, later, htable, hmiss⟩)
  · apply decodeWord_of_find_none
    simpa [OpcodeRow.hits] using hnone
  · obtain ⟨r, hr, -, rfl⟩ := row_of_decodeWord h
    exact build_ovf w r hr

/-- Settles O1, word by word. -/
theorem wordsWrittenOutDecode : Obligations.WordsWrittenOutDecode := by
  unfold Obligations.WordsWrittenOutDecode
  decide

/-- Settles O5: with rd 31 the word is that of `jalr rs`; with another rd it hits no row. -/
theorem jalrWordLinksOnlyRegister31 : Obligations.JalrWordLinksOnlyRegister31 := by
  intro rs rd
  split
  next h =>
    subst h
    exact decodeOfEncodeIsIdentity (.jalr rs) (by simp [Instr.wellFormed, Instr.ovf])
  next h =>
    have hmiss : ∀ r ∈ opcodeTable, ¬ r.hits (wordR rs 0#5 rd 0#5 0x09#6) = true :=
      fun r hr hhits => h (rd_of_hits_jalrWord hr hhits)
    rw [decodeWord_of_find_none (List.find?_eq_none.2 hmiss), if_pos (isJalrWord_wordR rs rd)]

end Sys2Proof

/-! PROOFS. From a reference word to the step that runs it, and from a label to the target it links (10_state.md R26,
45_control_transfer.md R240 to R243). First the rules the proofs use: the store of a word where the engine fetches, the targets
as numbers, and the linker's fields. Then the statements. -/

namespace Sys2Proof.Machine

/-! ## The store of a word where the engine fetches (log 5) -/

@[simp] theorem length_nopEntries (first n : Nat) : (nopEntries first n).length = n := by simp [nopEntries]

/-- The placed record stands at its index. -/
theorem placeEntry_getElem? (prog : List Entry) (k : Nat) (r : Record) :
    ∃ line, (placeEntry prog k r)[k]? = some ⟨r, line⟩ := by
  have hk : (prog.take k ++ nopEntries prog.length (k - prog.length)).length = k := by
    simp only [List.length_append, List.length_take, length_nopEntries]
    omega
  refine ⟨((prog[k]?).map Entry.line).getD (k + 1), ?_⟩
  rw [placeEntry, List.getElem?_append_right (by rw [hk]), hk, Nat.sub_self, List.getElem?_cons_zero]

/-- A placed transfer has an entry in its delay slot. -/
theorem lt_length_placeEntry (prog : List Entry) (k : Nat) {r : Record} (h : r.isTransfer = true) :
    k + 1 < (placeEntry prog k r).length := by
  simp only [placeEntry, h, Bool.true_and, List.length_append, List.length_take, length_nopEntries, List.length_cons]
  split
  next => rw [length_nopEntries]; omega
  next hafter =>
    have : 0 < (prog.drop (k + 1)).length := List.length_pos_iff.2 (by simpa using hafter)
    omega

/-- The store of a word that decodes to an instruction changes the program alone. -/
theorem withFetchWord_of_decode (s : State) {w : Word} {i : Instr} (h : decodeWord w = .record (.op i)) :
    s.withFetchWord 32 w.toNat = { s with prog := placeEntry s.prog (s.pc.toNat / 4) (.op i) } := by
  have hw : BitVec.ofNat 32 (w.toNat % 2 ^ 32) = w := by rw [Nat.mod_eq_of_lt w.isLt, BitVec.ofNat_toNat, BitVec.setWidth_eq]
  rw [State.withFetchWord, hw, State.placeWord, h]

/-! ## Targets -/

/-- The target of a jump from below 2^28 is its index, in instructions (45_control_transfer.md R240). -/
theorem jumpTarget_toNat {pcE : Word} (h : pcE.toNat < 2 ^ 28) (index : Index26) :
    (jumpTarget pcE index).toNat = 4 * index.toNat := by
  rw [jumpTarget, highBits_eq_zero h, BitVec.toNat_append, BitVec.toNat_append]
  simp [Nat.shiftLeft_eq, Nat.mul_comm]

/-- The target of a branch at index `k`, whose delay slot is at index `k + 1` (45_control_transfer.md R241). -/
theorem branchTarget_eq (k : Nat) (off : Field16) :
    branchTarget (BitVec.ofNat 32 (4 * k + 4)) off = BitVec.ofInt 32 (4 * (k + 1 + off.toInt)) := by
  have hoff : off.signExtend 32 <<< 2 = BitVec.ofInt 32 (off.toInt * 4) :=
    (BitVec.shiftLeft_eq_mul_twoPow ..).trans (BitVec.ofInt_mul off.toInt 4).symm
  have hpc : BitVec.ofNat 32 (4 * k + 4) = BitVec.ofInt 32 (4 * k + 4 : Nat) := (BitVec.ofInt_natCast ..).symm
  rw [branchTarget, hoff, hpc, ← BitVec.ofInt_add]
  congr 1
  push_cast
  ring

/-! ## The linker's fields (30_encoding.md R98, R99) -/

section
variable {labels : List (Text × Nat)} {name : Text}

theorem linkJump_of_some {l : Nat} (h : labelIndex labels name = some l) :
    linkJump labels name = (BitVec.ofNat 26 l, []) := by
  rw [linkJump, h]

theorem linkJump_of_none (h : labelIndex labels name = none) :
    linkJump labels name = (0x3FFFFFF#26, [.undefinedLabel]) := by
  rw [linkJump, h]

theorem linkBranch_of_none (h : labelIndex labels name = none) (k : Nat) :
    linkBranch labels k name = .ok (0x7FFF#16, [.undefinedLabel]) := by
  rw [linkBranch, h]

/-- A branch that links to a defined label reports nothing, and its offset leads from index `k + 1` to the label. -/
theorem linkBranch_of_some {k l : Nat} (h : labelIndex labels name = some l) {off : Field16} {kinds : List DiagKind}
    (hlink : linkBranch labels k name = .ok (off, kinds)) : kinds = [] ∧ off.toInt = (l : Int) - (k + 1) := by
  rw [linkBranch, h] at hlink
  dsimp only at hlink
  split at hlink
  next hfits =>
    simp only [Except.ok.injEq, Prod.mk.injEq] at hlink
    obtain ⟨rfl, rfl⟩ := hlink
    exact ⟨rfl, BitVec.toInt_ofInt_eq_self (by decide) (by omega) (by omega)⟩
  next => cases hlink

end

/-! ## The statements -/

/-- Settles O14: the record stands where the engine fetches, and a transfer's delay slot after it. -/
theorem stepRunsThePlacedWord : Obligations.StepRunsThePlacedWord := by
  intro s w i hdecode ha
  rw [withFetchWord_of_decode s hdecode]
  obtain ⟨line, hentry⟩ := placeEntry_getElem? s.prog (s.pc.toNat / 4) (.op i)
  refine ⟨⟨.op i, line⟩, rfl,
    step_of_entry (s := { s with prog := placeEntry s.prog (s.pc.toNat / 4) (.op i) }) ha hentry,
    fun htr hnormal => ⟨hnormal, ?aligned, ?inside⟩⟩
  case aligned =>
    show (s.pc + 4#32).toNat % 4 = 0
    rw [BitVec.toNat_add, BitVec.toNat_ofNat]
    omega
  case inside =>
    have hlen : s.pc.toNat / 4 + 1 < (placeEntry s.prog (s.pc.toNat / 4) (.op i)).length :=
      lt_length_placeEntry _ _ htr
    show (s.pc + 4#32).toNat < 4 * (placeEntry s.prog (s.pc.toNat / 4) (.op i)).length
    rw [BitVec.toNat_add, BitVec.toNat_ofNat]
    omega

/-- Settles O48: the linked offset leads from the delay slot's index to the label's, and an admitted label's index fits the
26 bits of a jump. -/
theorem linkedTargetsReachTheirLabels : Obligations.LinkedTargetsReachTheirLabels := by
  intro labels name k l hlabel hk hl
  simp only [nMax] at hk hl
  rw [linkJump_of_some hlabel]
  refine ⟨fun off kinds hlink => ?_, rfl, BitVec.eq_of_toNat_eq ?_⟩
  · obtain ⟨hkinds, hoff⟩ := linkBranch_of_some hlabel hlink
    have htarget : 4 * ((k : Int) + 1 + ((l : Int) - (k + 1))) = (4 * l : Nat) := by omega
    exact ⟨hkinds, by rw [branchTarget_eq, hoff, htarget, BitVec.ofInt_natCast]⟩
  · rw [jumpTarget_toNat (by rw [BitVec.toNat_ofNat]; omega), BitVec.toNat_ofNat, BitVec.toNat_ofNat]
    omega

/-- Settles O49: an admitted program ends at or below the jump sentinel's target, and the branch sentinel leads 32767
instructions past the delay slot. -/
theorem sentinelsRunOffTheEnd : Obligations.SentinelsRunOffTheEnd := by
  intro labels name k prog hlabel hwf hk
  have hlen : prog.length ≤ 0x3FFFFFF := hwf.1
  have hjump : (jumpTarget (BitVec.ofNat 32 (4 * k + 4)) 0x3FFFFFF#26).toNat = 4 * 0x3FFFFFF :=
    jumpTarget_toNat (by rw [BitVec.toNat_ofNat]; omega) _
  have hbranch : (branchTarget (BitVec.ofNat 32 (4 * k + 4)) 0x7FFF#16).toNat = 4 * (k + 32768) := by
    have htarget : 4 * ((k : Int) + 1 + (0x7FFF#16).toInt) = (4 * (k + 32768) : Nat) := by
      rw [show (0x7FFF#16).toInt = 32767 from by decide]
      omega
    rw [branchTarget_eq, htarget, BitVec.ofInt_natCast, BitVec.toNat_ofNat]
    omega
  refine ⟨0x3FFFFFF#26, 0x7FFF#16, linkJump_of_none hlabel, linkBranch_of_none hlabel k, fun s hs =>
    ⟨BitVec.eq_of_toNat_eq hjump, ?_, hbranch, fun hend => ?_⟩⟩
  · rw [halted_iff, hs, hjump]
    omega
  · rw [halted_iff, hs, hbranch]
    omega

end Sys2Proof.Machine

/-! PROOFS. The front end, from the lines of a text to the entries and the diagnostics (30_encoding.md sections 2 to 5). First
the rules the proofs use: labels, literals, lines without a separator, entries, and who reports what on which line. Then the
statements. -/

namespace Sys2Proof.Machine

/-! ## Labels (30_encoding.md R91 to R93) -/

theorem labelIndex_cons_self (labels : List (Text × Nat)) (name : Text) (k : Nat) :
    labelIndex ((name, k) :: labels) name = some k := by
  simp [labelIndex]

theorem labelIndex_cons_ne (labels : List (Text × Nat)) {name other : Text} (k : Nat) (h : other ≠ name) :
    labelIndex ((name, k) :: labels) other = labelIndex labels other := by
  simp [labelIndex, h.symm]

section
variable {name : Text} (st : LoaderState) (line : Nat)

theorem define_of_digit (h : name.any Char.isDigit = true) :
    st.define line name = { st with diags := st.diags ++ [⟨line, .labelDigits⟩] } := by
  rw [LoaderState.define, if_pos h]

theorem define_of_noDigit (h : name.any Char.isDigit = false) :
    st.define line name =
      { st with
        labels := (name, st.lines.length) :: st.labels
        diags := if labelIndex st.labels name = none then st.diags else st.diags ++ [⟨line, .duplicateLabel⟩] } := by
  rw [LoaderState.define, if_neg (by simp [h])]
  cases labelIndex st.labels name <;> rfl

end

/-! ## Immediate literals (30_encoding.md R104) -/

theorem immediateField_of_low {v : Int} (h : v < -32768) : immediateField v = .error .immediateTooLow := by
  rw [immediateField, if_pos h]

theorem immediateField_of_admitted {v : Int} (h : -32768 ≤ v) :
    immediateField v = .ok (BitVec.ofInt 16 v, decide (0xFFFF < v)) := by
  rw [immediateField, if_neg (by omega)]

/-! ## Lines without a separator (30_encoding.md R85, R102) -/

theorem splitMnemonic_of_noBlank {t : Text} (h : ∀ c ∈ t, isBlank c = false) : splitMnemonic t = none := by
  have hdrop : t.dropWhile (fun c => !isBlank c) = [] := List.dropWhile_eq_nil_iff.2 (by simpa using h)
  rw [splitMnemonic, hdrop]

/-! ## Entries (30_encoding.md R109) -/

/-- The entry at an index is the decode of the line there, numbered from the first line's index. -/
theorem decodeLines_getElem? {labels : List (Text × Nat)} {ls : List SourceLine} :
    ∀ {k : Nat} {out : List Entry × List Diagnostic}, decodeLines labels k ls = .ok out →
      ∀ {j : Nat} {e : Entry} {l : SourceLine}, out.1[j]? = some e → ls[j]? = some l →
        e.line = l.line ∧ ∃ kinds, decodeLine labels (k + j) l.text = .ok (e.record, kinds) := by
  induction ls with
  | nil => simp
  | cons l ls ih =>
    intro k out h j e l' he hl
    obtain ⟨r, kinds, rest, hline, hrest, rfl⟩ := decodeLines_cons_ok.1 h
    cases j with
    | zero =>
      obtain rfl : _ = e := by simpa using he
      obtain rfl : l = l' := by simpa using hl
      exact ⟨rfl, kinds, hline⟩
    | succ j =>
      have hentry := ih hrest (j := j) (by simpa using he) (by simpa using hl)
      rwa [Nat.add_right_comm] at hentry

/-! ## Who reports what, on which line (60_exceptions.md R300) -/

/-- Diagnostics of the given kinds, at most one for each of the given lines, in the order of the lines. -/
structure ReportsOnLines (lines : List Nat) (kinds : List DiagKind) (diags : List Diagnostic) : Prop where
  lines : (diags.map Diagnostic.line).Sublist lines
  kinds : ∀ d ∈ diags, d.kind ∈ kinds

section
variable {lines : List Nat} {kinds : List DiagKind} {diags : List Diagnostic}

theorem ReportsOnLines.nil : ReportsOnLines lines kinds [] := ⟨List.nil_sublist _, by simp⟩

/-- One more line before the others, with at most one diagnostic. -/
theorem ReportsOnLines.cons (h : ReportsOnLines lines kinds diags) {line : Nat} {first : List Diagnostic}
    (hfirst : first = [] ∨ ∃ k ∈ kinds, first = [⟨line, k⟩]) :
    ReportsOnLines (line :: lines) kinds (first ++ diags) := by
  rcases hfirst with rfl | ⟨k, hk, rfl⟩
  · exact ⟨h.lines.cons line, h.kinds⟩
  · exact ⟨h.lines.cons_cons line, List.forall_mem_cons.2 ⟨hk, h.kinds⟩⟩

/-- On rising lines the diagnostics stand in line order. -/
theorem ReportsOnLines.pairwise (h : ReportsOnLines lines kinds diags) (hl : lines.Pairwise (· < ·)) :
    diags.Pairwise (fun a b => a.line < b.line) :=
  List.pairwise_map.1 (hl.sublist h.lines)

end

/-! ## The loader's diagnostics (30_encoding.md R92, R93) -/

/-- A label definition reports at most once. -/
theorem define_diags (st : LoaderState) (n : Nat) (name : Text) :
    ∃ first, (st.define n name).diags = st.diags ++ first ∧ (first = [] ∨ ∃ k ∈ loaderKinds, first = [⟨n, k⟩]) := by
  cases h : name.any Char.isDigit with
  | true =>
    rw [define_of_digit st n h]
    exact ⟨_, rfl, .inr ⟨_, by decide, rfl⟩⟩
  | false =>
    rw [define_of_noDigit st n h]
    dsimp only
    split
    · exact ⟨[], by simp, .inl rfl⟩
    · exact ⟨_, rfl, .inr ⟨_, by decide, rfl⟩⟩

/-- A line of the text is reported at most once. -/
theorem line_diags (st : LoaderState) (n : Nat) (raw : Text) :
    ∃ first, (st.line n raw).diags = st.diags ++ first ∧ (first = [] ∨ ∃ k ∈ loaderKinds, first = [⟨n, k⟩]) := by
  unfold LoaderState.line
  dsimp only
  split
  · exact ⟨[], by simp, .inl rfl⟩
  · split
    · exact define_diags ..
    · exact ⟨[], by simp, .inl rfl⟩

/-- The loader's pass appends its diagnostics in line order. -/
theorem loadLines_diags (ts : List Text) : ∀ (n : Nat) (st : LoaderState),
    ∃ more, (loadLines n ts st).diags = st.diags ++ more ∧
      ReportsOnLines (List.range' n ts.length) loaderKinds more := by
  induction ts with
  | nil => exact fun n st => ⟨[], by simp [loadLines], .nil⟩
  | cons t ts ih =>
    intro n st
    obtain ⟨first, hfirst, hone⟩ := line_diags st n t
    obtain ⟨more, hmore, hrest⟩ := ih (n + 1) (st.line n t)
    refine ⟨first ++ more, ?_, hrest.cons hone⟩
    rw [loadLines, hmore, hfirst, List.append_assoc]

/-- The loader's diagnostics are of its own kinds and stand in line order. -/
theorem load_diags (text : Text) :
    (∀ d ∈ (load text).diags, d.kind ∈ loaderKinds) ∧ (load text).diags.Pairwise (fun a b => a.line < b.line) := by
  obtain ⟨more, hmore, hon⟩ := loadLines_diags (splitAt '\n' text) 1 ⟨[], [], []⟩
  rw [load, hmore, List.nil_append]
  exact ⟨hon.kinds, hon.pairwise List.pairwise_lt_range'⟩

/-! ## The linker's diagnostics (30_encoding.md R98, R99) -/

section
variable {labels : List (Text × Nat)} {k : Nat} {kinds : List DiagKind}

theorem linkJump_kinds (label : Text) :
    (linkJump labels label).2 = [] ∨ (linkJump labels label).2 = [.undefinedLabel] := by
  unfold linkJump
  split
  · exact .inl rfl
  · exact .inr rfl

theorem linkBranch_kinds {label : Text} {off : Field16} (h : linkBranch labels k label = .ok (off, kinds)) :
    kinds = [] ∨ kinds = [.undefinedLabel] := by
  unfold linkBranch at h
  dsimp only at h
  split at h
  · split at h
    · cases h
      exact .inl rfl
    · cases h
  · cases h
    exact .inr rfl

/-- A record that needs no link comes without a report. -/
theorem kinds_eq_nil_of_map {ε α : Type} {x : Except ε α} {f : α → Record} {r : Record}
    (h : x.map (fun a => (f a, ([] : List DiagKind))) = .ok (r, kinds)) : kinds = [] := by
  cases x with
  | error e => cases h
  | ok a => cases h; rfl

/-- Only the link of a jump or branch reports, and at most once. -/
theorem assemble_kinds {shape : Shape} {ops : List Text} {r : Record} (h : assemble labels k shape ops = .ok (r, kinds)) :
    kinds = [] ∨ kinds = [.undefinedLabel] := by
  unfold assemble at h
  split at h
  next => -- a jump
    cases h
    exact linkJump_kinds _
  next => -- a branch that compares with zero
    split at h
    next hlink => cases h; exact linkBranch_kinds hlink
    next => cases h
    next => cases h
  next => -- a branch that compares two registers
    split at h
    next hlink => cases h; exact linkBranch_kinds hlink
    next => cases h
    next => cases h
    next => cases h
  next => cases h
  next => cases h
  next => cases h
  next => -- a shape that names no label
    split at h
    next => cases h
    next => exact .inl (kinds_eq_nil_of_map h)

/-- The decode of a line reports at most once, an undefined label (30_encoding.md R98, R99). -/
theorem decodeLine_kinds {t : Text} {r : Record} (h : decodeLine labels k t = .ok (r, kinds)) :
    kinds = [] ∨ kinds = [.undefinedLabel] := by
  unfold decodeLine at h
  split at h
  · cases h
    exact .inl rfl
  · split at h
    · exact assemble_kinds h
    · exact .inl (kinds_eq_nil_of_map h)

end

/-- The linker's diagnostics, at most one for each line, in the order of the lines (30_encoding.md R101). -/
theorem decodeLines_diags {labels : List (Text × Nat)} {ls : List SourceLine} :
    ∀ {k : Nat} {out : List Entry × List Diagnostic}, decodeLines labels k ls = .ok out →
      ReportsOnLines (ls.map SourceLine.line) [.undefinedLabel] out.2 := by
  induction ls with
  | nil =>
    intro k out h
    obtain rfl : ([], []) = out := by simpa [decodeLines] using h
    exact .nil
  | cons l ls ih =>
    intro k out h
    obtain ⟨r, kinds, rest, hline, hrest, rfl⟩ := decodeLines_cons_ok.1 h
    refine (ih hrest).cons ?_
    rcases decodeLine_kinds hline with rfl | rfl
    · exact .inl rfl
    · exact .inr ⟨_, List.mem_singleton_self _, rfl⟩

/-! ## The engine's diagnostics (60_exceptions.md R300, R305) -/

/-- The diagnostics grow by kinds that the engine raises. -/
def EngineReports (s t : State) : Prop := ∃ more, t.diags = s.diags ++ more ∧ ∀ d ∈ more, d.kind ∈ engineKinds

theorem EngineReports.refl (s : State) : EngineReports s s := ⟨[], by simp⟩

theorem EngineReports.trans {s t u : State} (hst : EngineReports s t) (htu : EngineReports t u) : EngineReports s u := by
  obtain ⟨m, hm, hmk⟩ := hst
  obtain ⟨n, hn, hnk⟩ := htu
  exact ⟨m ++ n, by rw [hn, hm, List.append_assoc], List.forall_mem_append.2 ⟨hmk, hnk⟩⟩

theorem StraightEffect.engineReports {s t : State} (h : StraightEffect s t) : EngineReports s t := by
  rcases h.reports with hr | ⟨k, hk, hr⟩
  · exact ⟨_, hr, by simp⟩
  · exact ⟨_, hr, by simpa using hk⟩

/-- A record reports for itself, or for the record in its delay slot. -/
theorem execRecord_engineReports {r : Record} {s t : State} (h : execRecord r s = .next t) : EngineReports s t := by
  cases htr : r.isTransfer with
  | false =>
    obtain ⟨u, hu, heff⟩ := execRecord_straight htr s
    obtain rfl : t = u := by simpa [h] using hu
    exact heff.engineReports
  | true =>
    obtain ⟨x, hx⟩ := execRecord_of_transfer htr s
    rcases transfer_next_iff.1 (hx ▸ h) with ⟨-, rfl⟩ | ⟨-, u, hu, rfl⟩
    · exact (straight_diag s (by decide)).engineReports
    · obtain ⟨-, d, v, -, -, heff, rfl⟩ := slotStep_next_iff.1 hu
      simpa [EngineReports] using heff.engineReports

theorem step_engineReports {s t : State} (h : step s = .next t) : EngineReports s t := by
  rcases step_next_iff.1 h with ⟨-, rfl⟩ | ⟨-, e, u, -, hu, rfl⟩
  · exact .refl _
  · exact (execRecord_engineReports hu : EngineReports (s.fetched e) u)

/-! ## The statements -/

/-- Settles O52: each of the three appends diagnostics of its own kinds after those before it. -/
theorem loaderDiagnosticsPrecedeLinkerDiagnostics : Obligations.LoaderDiagnosticsPrecedeLinkerDiagnostics := by
  intro p text s t hc hr
  obtain ⟨engine, hengine, hengineKinds⟩ : EngineReports s t :=
    reaches_keeps (fun _ _ hst hstep => hst.trans (step_engineReports hstep)) hr (.refl s)
  obtain ⟨out, hout, rfl⟩ := construct_ok_iff.1 hc
  obtain ⟨-, entries, linker, hdecode, rfl⟩ := frontEnd_ok_iff.1 hout
  obtain ⟨hloaderKinds, hloaderLines⟩ := load_diags text
  have hlinker := decodeLines_diags hdecode
  exact ⟨(load text).diags, linker, engine, rfl, hengine, hloaderKinds, hloaderLines,
    fun d hd => List.mem_singleton.1 (hlinker.kinds d hd), hlinker.pairwise (List.pairwise_map.2 (load_lines text).1),
    hengineKinds⟩

/-- Settles O55: the one-time decode takes the lines in order. -/
theorem entriesAreTheDecodedLines : Obligations.EntriesAreTheDecodedLines := by
  intro text prog diags h
  obtain ⟨-, entries, linked, hdecode, hout⟩ := frontEnd_ok_iff.1 h
  obtain ⟨rfl, -⟩ := Prod.mk.inj hout
  refine ⟨by simpa using congrArg List.length (decodeLines_lines hdecode), fun k e l he hl => ?_⟩
  simpa using decodeLines_getElem? hdecode he hl

/-- Settles O50: the field of an admitted literal is the integer taken modulo 2^16. -/
theorem immediateLiteralsAreTruncatedAndMarked : Obligations.ImmediateLiteralsAreTruncatedAndMarked := by
  intro v
  refine ⟨immediateField_of_low, fun h => ⟨_, _, immediateField_of_admitted h, ?_, decide_eq_true_iff⟩⟩
  rw [BitVec.toNat_ofInt]
  omega

/-- Settles O51: the newest binding is the one a lookup finds. -/
theorem lastLabelDefinitionWins : Obligations.LastLabelDefinitionWins := by
  intro st line name other
  refine ⟨fun h => ?_, define_of_digit st line⟩
  rw [define_of_noDigit st line h]
  exact ⟨labelIndex_cons_self .., labelIndex_cons_ne _ _, rfl, rfl⟩

/-- Settles O53: with no white space in it, the line splits into no mnemonic and operands. -/
theorem linesWithoutSeparatorAreNopOrInvalid : Obligations.LinesWithoutSeparatorAreNopOrInvalid := by
  intro labels k t h
  rw [decodeLine, splitMnemonic_of_noBlank h]
  rfl

end Sys2Proof.Machine

/-! PROOFS. The step, the nested step and the commands (40_cycle.md). First the rules the proofs use: what either step answers
at each of the three kinds of pc, what an instruction that is no transfer leaves in the registers, the transfer whose delay
slot faults, and what the commands do to an engine. Then the statements. -/

namespace Sys2Proof.Machine

/-! ## The three kinds of pc, and the step at each (40_cycle.md R130 to R132, R139) -/

/-- A pc is past the end, or in bounds and misaligned, or selects an entry. -/
theorem halted_or_misaligned_or_entry (s : State) :
    s.halted = true ∨ (s.halted = false ∧ s.pc.toNat % 4 ≠ 0) ∨
      (s.pc.toNat % 4 = 0 ∧ ∃ e, s.prog[s.pc.toNat / 4]? = some e) := by
  cases hh : s.halted with
  | true => exact .inl rfl
  | false =>
    by_cases ha : s.pc.toNat % 4 = 0
    · obtain ⟨e, he, -⟩ := fetch_of_ready ha (halted_eq_false_iff.1 hh)
      exact .inr (.inr ⟨ha, e, he⟩)
    · exact .inr (.inl ⟨rfl, ha⟩)

section
variable {s : State}

theorem step_of_halted (h : s.halted = true) : step s = .next s := by
  rw [step, topStep, fetch_pastEnd_iff.2 h]

theorem slotStep_of_halted (h : s.halted = true) : slotStep s = .fault (.delaySlotPastEnd s) := by
  rw [slotStep, fetch_pastEnd_iff.2 h]

theorem step_of_misaligned (h : s.halted = false ∧ s.pc.toNat % 4 ≠ 0) : step s = .fault (.misalignedFetch s) := by
  rw [step, topStep, fetch_misaligned_iff.2 h]

theorem slotStep_of_misaligned (h : s.halted = false ∧ s.pc.toNat % 4 ≠ 0) :
    slotStep s = .fault (.misalignedFetch s) := by
  rw [slotStep, fetch_misaligned_iff.2 h]

end

/-- The pc advanced by 4 stays aligned, where it wraps too. -/
theorem aligned_add_four {pc : Word} (h : pc.toNat % 4 = 0) : (pc + 4#32).toNat % 4 = 0 := by
  rw [BitVec.toNat_add, BitVec.toNat_ofNat]
  omega

/-- The pc of an admitted program's entry does not wrap when it is advanced. -/
theorem toNat_add_four {prog : List Entry} {pc : Word} (hw : wellFormedProgram prog)
    (h : pc.toNat < 4 * prog.length) : (pc + 4#32).toNat = pc.toNat + 4 := by
  have hlen : prog.length ≤ 0x3FFFFFF := hw.1
  rw [BitVec.toNat_add, BitVec.toNat_ofNat, Nat.mod_eq_of_lt (a := 4) (by decide), Nat.mod_eq_of_lt (by omega)]

/-- Where register 0 is zero, the forcing changes nothing. -/
theorem forceZero_eq_self {s : State} (h : s.readReg zeroReg = 0#32) : s.forceZero = s := by
  have hregs : s.forceZero.regs = s.regs := regs_eq_of_readReg fun r => by
    rw [readReg_forceZero]
    split
    next hr => rw [hr, h]
    next => rfl
  exact congrArg (fun regs => { s with regs }) hregs

/-! ## No result is a refusal (40_cycle.md R133) -/

theorem onNext_refused_iff {f : State → State} {r : Result} {x : Refusal} :
    onNext f r = .refused x ↔ r = .refused x := by
  cases r <;> simp [onNext]

theorem slotStep_ne_refused (s : State) (x : Refusal) : slotStep s ≠ .refused x := by
  rcases halted_or_misaligned_or_entry s with hh | hm | ⟨ha, e, he⟩
  · rw [slotStep_of_halted hh]
    nofun
  · rw [slotStep_of_misaligned hm]
    nofun
  · obtain ⟨u, hu, -⟩ := slotExecRecord_next e.record (s.fetched e)
    rw [slotStep_of_entry ha he, hu, onNext_next]
    nofun

theorem transfer_ne_refused (t : Transfer) (s : State) (x : Refusal) : transfer t s ≠ .refused x := by
  cases hs : s.inDelaySlot with
  | true =>
    rw [transfer_nested hs, nestedTransfer]
    nofun
  | false =>
    rw [transfer, if_neg (by simp [hs]), Ne, onNext_refused_iff]
    exact slotStep_ne_refused _ x

theorem execRecord_ne_refused (r : Record) (s : State) (x : Refusal) : execRecord r s ≠ .refused x := by
  cases ht : r.isTransfer with
  | false =>
    obtain ⟨u, hu, -⟩ := execRecord_straight ht s
    rw [hu]
    nofun
  | true =>
    obtain ⟨t, hx⟩ := execRecord_of_transfer ht s
    rw [hx]
    exact transfer_ne_refused t s x

/-! ## The registers an instruction that is no transfer leaves alone -/

/-- Every register outside `rds` is unchanged. -/
def KeepsRegistersBut (s t : State) (rds : List RegIdx) : Prop := ∀ r, r ∉ rds → t.readReg r = s.readReg r

theorem SameRegisters.keepsRegistersBut {s t : State} (h : SameRegisters s t) (rds : List RegIdx) :
    KeepsRegistersBut s t rds := fun r _ => h r

theorem RegisterBecomes.keepsRegistersBut {s t : State} {rd : RegIdx} {v : Word} (h : RegisterBecomes s t rd v) :
    KeepsRegistersBut s t [rd] := fun r hr => h.others r (List.ne_of_not_mem_cons hr)

section
variable (s : State) (rt base : RegIdx) (off : Field16) (n : Nat)

theorem writeReg_keepsRegistersBut (v : Word) : KeepsRegistersBut s (s.writeReg rt v) [rt] :=
  (writesOnly_writeReg s rt v).keepsRegistersBut

theorem immediate_keepsRegistersBut (ovf : Bool) (v : Word) : KeepsRegistersBut s (s.immediate rt ovf v) [rt] :=
  (writesOnly_immediate s rt ovf v).keepsRegistersBut

/-- A load writes its destination on either side of the range check. -/
theorem load_keepsRegistersBut (f : Memory → Nat → Word) : KeepsRegistersBut s (s.load rt base off n f) [rt] := by
  by_cases h : inRange (effectiveAddress (s.readReg base) off) n = true
  · exact (load_writesOnly_inRange h).keepsRegistersBut
  · exact (load_writesOnly_outOfRange h).keepsRegistersBut

/-- A conditional move writes its destination or nothing. -/
theorem condMove_keepsRegistersBut (c : Prop) [Decidable c] (v : Word) :
    KeepsRegistersBut s (if c then s.writeReg rt v else s) [rt] := by
  split
  · exact writeReg_keepsRegistersBut s rt v
  · exact fun _ _ => rfl

end

/-- An instruction that is no transfer changes no register that it does not name as a destination. -/
theorem exec_keepsRegistersBut {i : Instr} (h : i.isTransfer = false) (s : State) :
    ∃ t, exec i s = .next t ∧ KeepsRegistersBut s t (writes i) := by
  cases i
  case nop => exact ⟨_, rfl, fun _ _ => rfl⟩
  case sll | srl | sra | sllv | srlv | srav | addu | subu | and | or | xor | nor | slt | sltu =>
    exact ⟨_, rfl, writeReg_keepsRegistersBut _ _ _⟩
  case movz | movn => exact ⟨_, rfl, condMove_keepsRegistersBut _ _ _ _⟩
  case addiu | slti | sltiu | andi | ori | xori | lui => exact ⟨_, rfl, immediate_keepsRegistersBut _ _ _ _⟩
  case lb | lw | lbu => exact ⟨_, rfl, load_keepsRegistersBut _ _ _ _ _ _⟩
  case sb | sw => exact ⟨_, rfl, (store_sameRegisters _).keepsRegistersBut _⟩
  case j | jal | jr | jalr | beq | bne | bltz | blez | bgtz | bgez => cases h

/-! ## A transfer, its link, and a delay slot that faults -/

/-- Every transfer is executed by the one handler, which links for `jal` and `jalr` alone (45_control_transfer.md R232). -/
theorem execRecord_of_transfer_links {r : Record} (h : r.isTransfer = true) (s : State) :
    ∃ x : Transfer, execRecord r s = transfer x s ∧ x.links = isLinking r := by
  cases r with
  | unsup => cases h
  | invalid => cases h
  | op i =>
    cases i
    case j | jal | jr | jalr | beq | bne | bltz | blez | bgtz | bgez => exact ⟨_, rfl, rfl⟩
    all_goals cases h

/-- A model fault in the delay slot ends the transfer at once (45_control_transfer.md R236). -/
theorem transfer_of_slotFault {s : State} {x : Transfer} {f : Fault} (hs : s.inDelaySlot = false)
    (h : slotStep (s.enterSlot x) = .fault f) : transfer x s = .fault f := by
  rw [transfer, if_neg (by simp [hs]), onNext_fault_iff, h]

/-! ## `Run` and `RunUntilLine` (40_cycle.md R141, R142) -/

/-- How a run ends, by the order in which `runWhile` asks: halted, a model fault, at its stop condition after a step, or
as the run from the state after a step ends. -/
inductive RunEnds (stop : State → Bool) : Nat → State → Engine → Prop where
  | halted {fuel : Nat} {s : State} (hh : s.halted = true) : RunEnds stop fuel s (.ready s)
  | faulted {fuel : Nat} {s : State} {f : Fault} (hh : s.halted = false) (hf : step s = .fault f) :
      RunEnds stop (fuel + 1) s (.faulted f)
  | stopped {fuel : Nat} {s t : State} (hh : s.halted = false) (ht : step s = .next t) (hstop : stop t = true) :
      RunEnds stop (fuel + 1) s (.ready t)
  | goesOn {fuel : Nat} {s t : State} {e : Engine} (hh : s.halted = false) (ht : step s = .next t)
      (hstop : stop t = false) (hrest : RunEnds stop fuel t e) : RunEnds stop (fuel + 1) s e

section
variable {stop : State → Bool} {fuel : Nat} {s t : State} {e : Engine}

/-- The ends of a run are the ends that `runWhile` answers. -/
theorem runWhile_ended_iff : runWhile stop fuel s = .ended e ↔ RunEnds stop fuel s e := by
  constructor
  · intro h
    induction fuel generalizing s with
    | zero =>
      rw [runWhile] at h
      split at h
      next hh =>
        cases h
        exact .halted hh
      next => cases h
    | succ fuel ih =>
      rw [runWhile] at h
      split at h
      next hh =>
        cases h
        exact .halted hh
      next hh =>
        have hh : s.halted = false := Bool.eq_false_of_not_eq_true hh
        split at h
        next t ht =>
          split at h
          next hstop =>
            cases h
            exact .stopped hh ht hstop
          next hstop => exact .goesOn hh ht (Bool.eq_false_of_not_eq_true hstop) (ih h)
        next f hf =>
          cases h
          exact .faulted hh hf
        next => cases h
  · intro h
    induction h with
    | @halted fuel s hh => cases fuel <;> simp [runWhile, hh]
    | faulted hh hf => simp [runWhile, hh, hf]
    | stopped hh ht hstop => simp [runWhile, hh, ht, hstop]
    | goesOn hh ht hstop _ ih => simp [runWhile, hh, ht, hstop, ih]

/-- An end is an end under more fuel. -/
theorem RunEnds.more (h : RunEnds stop fuel s e) (more : Nat) : RunEnds stop (fuel + more) s e := by
  induction h with
  | halted hh => exact .halted hh
  | faulted hh hf =>
    rw [Nat.add_right_comm]
    exact .faulted hh hf
  | stopped hh ht hstop =>
    rw [Nat.add_right_comm]
    exact .stopped hh ht hstop
  | goesOn hh ht hstop _ ih =>
    rw [Nat.add_right_comm]
    exact .goesOn hh ht hstop ih

theorem core_run_succ (h : step s = .next t) (n : Nat) : core.run (n + 1) s = core.run n t := by
  have h' : core.step s = .next t := h
  simp only [Host.Core.run, h']

/-- Steps after a first step are steps from its start. -/
theorem reaches_of_step {u : State} (h : step s = .next t) (hr : Reaches t u) : Reaches s u := by
  induction hr with
  | refl => exact .step (.refl s) h
  | step _ h' ih => exact .step ih h'

/-- `n` steps lead from `s` to `t`, and no state before `t` is one at which a run from `s` ends. -/
structure RunsTo (stop : State → Bool) (s t : State) (n : Nat) : Prop where
  reached : core.run n s = .next t
  before : ∀ (m : Nat) (u : State), m < n → core.run m s = .next u → u.halted = false ∧ (0 < m → stop u = false)

theorem RunsTo.refl (s : State) : RunsTo stop s s 0 := ⟨rfl, fun _ _ hm => absurd hm (Nat.not_lt_zero _)⟩

theorem RunsTo.head {u : State} {n : Nat} (hh : s.halted = false) (ht : step s = .next t)
    (hstop : 0 < n → stop t = false) (h : RunsTo stop t u n) : RunsTo stop s u (n + 1) := by
  refine ⟨(core_run_succ ht n).trans h.reached, fun m v hm hv => ?_⟩
  cases m with
  | zero =>
    obtain rfl : s = v := Host.Outcome.next.inj hv
    exact ⟨hh, fun hm => absurd hm (Nat.lt_irrefl 0)⟩
  | succ m =>
    have hmn : m < n := Nat.lt_of_succ_lt_succ hm
    have hv : core.run m t = .next v := (core_run_succ ht m).symm.trans hv
    refine ⟨(h.before m v hmn hv).1, fun _ => ?_⟩
    rcases Nat.eq_zero_or_pos m with rfl | hpos
    · obtain rfl : t = v := Host.Outcome.next.inj hv
      exact hstop hmn
    · exact (h.before m v hmn hv).2 hpos

/-- A run that ends without a model fault ends at the first state that is halted, or that a step leaves with the stop
condition met. -/
theorem RunEnds.runsTo (h : RunEnds stop fuel s (.ready t)) :
    ∃ n ≤ fuel, RunsTo stop s t n ∧ (t.halted = true ∨ (0 < n ∧ stop t = true)) := by
  generalize he : Engine.ready t = e at h
  induction h with
  | halted hh =>
    cases he
    exact ⟨0, Nat.zero_le _, .refl t, .inl hh⟩
  | faulted => cases he
  | stopped hh ht hstop =>
    cases he
    exact ⟨1, by omega, .head hh ht (fun h0 => absurd h0 (Nat.lt_irrefl 0)) (.refl t), .inr ⟨Nat.one_pos, hstop⟩⟩
  | goesOn hh ht hstop _ ih =>
    obtain ⟨n, hn, hruns, hend⟩ := ih he
    exact ⟨n + 1, by omega, .head hh ht (fun _ => hstop) hruns, hend.imp_right fun h => ⟨Nat.succ_pos n, h.2⟩⟩

/-- A state that a run ends in is one that its steps reach. -/
theorem RunEnds.reaches (h : RunEnds stop fuel s (.ready t)) : Reaches s t := by
  generalize he : Engine.ready t = e at h
  induction h with
  | halted =>
    cases he
    exact .refl t
  | faulted => cases he
  | stopped _ ht =>
    cases he
    exact reaches_of_step ht (.refl t)
  | goesOn _ ht _ _ ih => exact reaches_of_step ht (ih he)

/-- `Run` has no stop condition, so it ends without a model fault only halted. -/
theorem halted_of_run_ended (h : run fuel s = .ended (.ready t)) : t.halted = true := by
  obtain ⟨n, -, -, hhalted | ⟨-, hstop⟩⟩ := (runWhile_ended_iff.1 h).runsTo
  · exact hhalted
  · cases hstop

end

/-! ## The statements -/

/-- Settles O15: the halted test is the test of the pc, and a halted step answers the state it had. -/
theorem haltedEngineHasNoTransition : Obligations.HaltedEngineHasNoTransition := by
  refine ⟨fun s => ⟨halted_iff, fun h => ⟨step_of_halted h, fun fuel => ?_⟩⟩,
    fun _ _ _ _ hc hr => (construct_reaches_inv hc hr).normal, fun _ _ _ h => halted_of_run_ended h⟩
  rw [Engine.command, stepCommand, step_of_halted h]

/-- Settles O16: a transfer at an aligned pc leaves its delay slot aligned, so only the top-level fetch can be misaligned. -/
theorem misalignedFetchFaultsExactlyInBounds : Obligations.MisalignedFetchFaultsExactlyInBounds := by
  intro s u _
  constructor
  · intro h
    rcases step_fault_cases h with ⟨hh, hm, heq⟩ | ⟨-, ha, -, e, x, -, -, -, hslot⟩
    · exact ⟨halted_eq_false_iff.1 hh, hm, Fault.misalignedFetch.inj heq⟩
    · rcases slotStep_fault_cases hslot with ⟨-, heq⟩ | ⟨-, hm, -⟩
      · cases heq
      · rw [enterSlot_pc, fetched_pc] at hm
        exact absurd (aligned_add_four ha) hm
  · rintro ⟨hi, hm, rfl⟩
    exact step_of_misaligned ⟨halted_eq_false_iff.2 hi, hm⟩

/-- Settles O17: at the last entry the delay slot is past the end, so the transfer stops in the state it enters the slot with. -/
theorem lastEntryTransferFaults : Obligations.LastEntryTransferFaults := by
  intro s e hs hw hlast he htr
  obtain ⟨x, hx, hlinks⟩ := execRecord_of_transfer_links htr (s.fetched e)
  have hend : ((s.fetched e).enterSlot x).halted = true := by
    rw [halted_iff, enterSlot_pc, enterSlot_prog, fetched_pc, fetched_prog, toNat_add_four hw (by omega), hlast]
  have hstep : step s = .fault (.delaySlotPastEnd ((s.fetched e).enterSlot x)) := by
    rw [step_of_entry (by omega) he, hx, onNext_fault_iff]
    exact transfer_of_slotFault hs (slotStep_of_halted hend)
  refine ⟨_, hstep, by simp, rfl, by simp, by simp, by simp, by simp, by simp, by simp, fun r => ?_⟩
  have hlink : linkValue (s.pc + 4#32) = s.pc + 8#32 := by rw [linkValue, BitVec.add_assoc]; rfl
  rw [enterSlot_readReg, link_readReg, hlinks, fetched_pc, hlink, fetched_linkTiming, fetched_readReg]

/-- Settles O18: the pc was in bounds and 4 more is not. -/
theorem delaySlotPastEndOnlyAtLastEntryTransfer : Obligations.DelaySlotPastEndOnlyAtLastEntryTransfer := by
  intro s u _ hw h
  rcases step_fault_cases h with ⟨-, -, heq⟩ | ⟨hh, ha, -, e, x, he, htr, -, hslot⟩
  · cases heq
  · refine ⟨?_, e, he, htr⟩
    rcases slotStep_fault_cases hslot with ⟨hend, -⟩ | ⟨-, -, heq⟩
    · have hin : s.pc.toNat < 4 * s.prog.length := halted_eq_false_iff.1 hh
      rw [halted_iff, enterSlot_pc, enterSlot_prog, fetched_pc, fetched_prog, toNat_add_four hw hin] at hend
      omega
    · cases heq

/-- Settles O19: a fetch that finds no entry refuses nothing, and neither does any record. -/
theorem stepIsNeverRefused : Obligations.StepIsNeverRefused := by
  intro s x
  rcases halted_or_misaligned_or_entry s with hh | hm | ⟨ha, e, he⟩
  · rw [step_of_halted hh]
    nofun
  · rw [step_of_misaligned hm]
    nofun
  · rw [step_of_entry ha he, Ne, onNext_refused_iff]
    exact execRecord_ne_refused _ _ x

/-- Settles O20: a fetch keeps the flag, and with the flag set the two dispatches agree. -/
theorem nestedStepIsTheSameProcedure : Obligations.NestedStepIsTheSameProcedure := by
  intro s hs
  refine ⟨fun hh => ?_, slotStep_of_halted⟩
  rcases halted_or_misaligned_or_entry s with hh' | hm | ⟨ha, e, he⟩
  · simp [hh] at hh'
  · rw [slotStep_of_misaligned hm, step_of_misaligned hm]
  · have hflag : (s.fetched e).inDelaySlot = true := hs
    rw [slotStep_of_entry ha he, step_of_entry ha he, slotExecRecord_eq_execRecord hflag]

/-- Settles O21: after the fetch a record that is no transfer leaves control alone. -/
theorem onlyTransfersLeaveTheSequentialPath : Obligations.OnlyTransfersLeaveTheSequentialPath := by
  intro s t e ha he htr h
  obtain ⟨u, hu, heff⟩ := execRecord_straight htr (s.fetched e)
  rw [step_of_entry ha he, hu, onNext_next] at h
  obtain rfl : u.forceZero = t := Host.Outcome.next.inj h
  exact ⟨heff.pc, heff.curIndex, heff.curLine, heff.inDelaySlot⟩

/-- Settles O44: dispatch answers one state, of which the frames of control, registers and memory all speak. -/
theorem straightInstructionsCompleteAndLeaveControlAlone :
    Obligations.StraightInstructionsCompleteAndLeaveControlAlone := by
  intro i s hi
  obtain ⟨t, ht, hregs⟩ := exec_keepsRegistersBut hi s
  have hslot : slotExecRecord (.op i) s = .next t := (exec_of_not_transfer hi s).symm.trans ht
  obtain ⟨u, hu, heff⟩ := slotExecRecord_next (.op i) s
  obtain rfl : t = u := by simpa [hslot] using hu
  refine ⟨t, ht, heff.toSameControl, hregs, fun hstore a => ?_⟩
  have hmem : t.mem = s.mem := slotExecRecord_mem (fun j hj => Record.op.inj hj ▸ hstore) hslot
  rw [hmem]

/-- Settles O56: an end of `Run` is an end of `runWhile`, which more fuel keeps. -/
theorem runEndsHaltedWhateverTheFuel : Obligations.RunEndsHaltedWhateverTheFuel := by
  intro fuel s e h
  have hends : RunEnds _ fuel s e := runWhile_ended_iff.1 h
  refine ⟨fun t ht => ?_, fun more => runWhile_ended_iff.2 (hends.more more)⟩
  subst ht
  exact ⟨halted_of_run_ended h, hends.reaches⟩

/-- Settles O57: the stop condition is met exactly where the current line is the one asked for. -/
theorem runUntilLineEndsAtTheLineOrHalted : Obligations.RunUntilLineEndsAtTheLineOrHalted := by
  intro line fuel s t h
  obtain ⟨n, hn, ⟨hreached, hbefore⟩, hend⟩ := (runWhile_ended_iff.1 h).runsTo
  refine ⟨n, hn, hreached, by simpa using hend, fun m u hm hu => ?_⟩
  simpa using hbefore m u hm hu

/-- Settles O13: the step at an entry, by the three kinds of record. -/
theorem stepRunsTheFetchedRecord : Obligations.StepRunsTheFetchedRecord := by
  intro s e ha he
  rw [step_of_entry ha he]
  refine ⟨fun i hr => ?_, fun hr => ?_, fun hr => ?_⟩ <;> rw [hr] <;> rfl

/-- Settles O23: after the fetch only the forcing is left, which changes nothing where register 0 is zero. -/
theorem nopChangesNothing : Obligations.NopChangesNothing := by
  intro s
  have hnop (t : State) : exec .nop t = .next t := rfl
  refine ⟨hnop s, fun e ha he hr hzero => ?_⟩
  have hzero' : (s.fetched e).readReg zeroReg = 0#32 := hzero
  rw [step_of_entry ha he, hr, execRecord, hnop, onNext_next, forceZero_eq_self hzero']
  rfl

/-- Settles O58: a faulted engine answers every command with itself. -/
theorem faultedEngineTakesNoCommand : Obligations.FaultedEngineTakesNoCommand :=
  fun _ _ _ => ⟨rfl, rfl⟩

end Sys2Proof.Machine

/-! PROOFS. The immediate instructions (41_imm_alu.md). First the rules the proofs use: the flag of a comparison, and each
reading of the literal as an integer or bit by bit. Then the statements. -/

namespace Sys2Proof.Machine

/-! ## The flag of a comparison, and the readings of a literal (30_encoding.md R82) -/

theorem flagWord_signedLess (a b : Word) :
    flagWord (signedLess a b) = if a.toInt < b.toInt then 1#32 else 0#32 := by
  simp only [flagWord, signedLess, decide_eq_true_eq]

theorem flagWord_unsignedLess (a b : Word) :
    flagWord (unsignedLess a b) = if a.toNat < b.toNat then 1#32 else 0#32 := by
  simp only [flagWord, unsignedLess, decide_eq_true_eq]

/-- Sign extension keeps the literal's value. -/
theorem signedImm_toInt (imm : Field16) : (signedImm imm).toInt = imm.toInt :=
  BitVec.toInt_signExtend_of_le (by decide)

/-- The unsigned reading of the sign-extended literal is its value modulo 2^32. -/
theorem signedImm_toNat (imm : Field16) : ((signedImm imm).toNat : Int) = imm.toInt % 2 ^ 32 := by
  rw [← signedImm_toInt, BitVec.toInt_eq_toNat_cond]
  have := (signedImm imm).isLt
  omega

/-- Zero extension keeps the literal's bits and sets none above them. -/
theorem unsignedImm_getLsbD (imm : Field16) {k : Nat} (hk : k < 32) :
    (unsignedImm imm).getLsbD k = (decide (k < 16) && imm.getLsbD k) := by
  rw [unsignedImm, BitVec.getLsbD_setWidth, decide_eq_true hk, Bool.true_and]
  by_cases hlow : k < 16
  · rw [decide_eq_true hlow, Bool.true_and]
  · rw [decide_eq_false hlow, Bool.false_and, BitVec.getLsbD_of_ge imm k (Nat.le_of_not_lt hlow)]

/-- A literal in the upper half is the literal times 2^16. -/
theorem upperImm_eq (imm : Field16) : upperImm imm = BitVec.ofNat 32 (imm.toNat * 65536) := by
  apply BitVec.eq_of_toNat_eq
  rw [upperImm, BitVec.toNat_append, BitVec.toNat_ofNat, BitVec.toNat_ofNat, Nat.shiftLeft_eq, Nat.zero_mod,
    Nat.or_zero]
  omega

/-! ## The statements -/

/-- Settles O24: the sign-extended literal has the literal's value, so sums and comparisons are those of integers. -/
theorem signExtendedImmediateResults : Obligations.SignExtendedImmediateResults := by
  intro s rt rs imm ovf kinds
  refine ⟨⟨_, rfl, ?addiu⟩, ⟨_, rfl, ?slti⟩, ⟨_, rfl, ?sltiu⟩⟩
  case addiu =>
    rw [← signedImm_toInt, BitVec.ofInt_add, BitVec.ofInt_toInt, BitVec.ofInt_toInt]
    exact writesOnly_immediate ..
  case slti =>
    rw [← signedImm_toInt, ← flagWord_signedLess]
    exact writesOnly_immediate ..
  case sltiu =>
    simp only [← signedImm_toNat, Int.ofNat_lt, ← flagWord_unsignedLess]
    exact writesOnly_immediate ..

/-- Settles O25: bit by bit for the zero-extended literal, and as a number for `lui`. -/
theorem logicalImmediateResults : Obligations.LogicalImmediateResults := by
  intro s rt rs imm ovf kinds
  refine ⟨⟨_, _, rfl, writesOnly_immediate .., fun k hk => ?and⟩, ⟨_, _, rfl, writesOnly_immediate .., fun k hk => ?or⟩,
    ⟨_, _, rfl, writesOnly_immediate .., fun k hk => ?xor⟩, ⟨_, rfl, ?lui⟩⟩
  case and => rw [BitVec.getLsbD_and, unsignedImm_getLsbD imm hk, Bool.and_assoc]
  case or => rw [BitVec.getLsbD_or, unsignedImm_getLsbD imm hk]
  case xor => rw [BitVec.getLsbD_xor, unsignedImm_getLsbD imm hk]
  case lui =>
    rw [← upperImm_eq]
    exact writesOnly_immediate ..

end Sys2Proof.Machine

/-! PROOFS. The register instructions (42_reg_alu.md). First the rules the proofs use: a sum and a difference of words as
integers. The flags of the comparisons have theirs above. Then the statements. -/

namespace Sys2Proof.Machine

/-! ## Sums and differences of words, as integers modulo 2^32 -/

theorem ofInt_toInt_add_toInt (a b : Word) : BitVec.ofInt 32 (a.toInt + b.toInt) = a + b := by
  rw [BitVec.ofInt_add, BitVec.ofInt_toInt, BitVec.ofInt_toInt]

theorem ofInt_toInt_sub_toInt (a b : Word) : BitVec.ofInt 32 (a.toInt - b.toInt) = a - b := by
  rw [Int.sub_eq_add_neg, BitVec.ofInt_add, BitVec.ofInt_neg, BitVec.ofInt_toInt, BitVec.ofInt_toInt,
    ← BitVec.sub_eq_add_neg]

/-! ## The statements -/

/-- Settles O26: each instruction is one register write, of the integer result modulo 2^32 or of the flag. -/
theorem registerArithmeticResults : Obligations.RegisterArithmeticResults := by
  intro s rd rs rt
  refine ⟨⟨_, rfl, ?addu⟩, ⟨_, rfl, ?subu⟩, ⟨_, rfl, ?slt⟩, ⟨_, rfl, ?sltu⟩⟩
  case addu =>
    rw [ofInt_toInt_add_toInt]
    exact writesOnly_writeReg ..
  case subu =>
    rw [ofInt_toInt_sub_toInt]
    exact writesOnly_writeReg ..
  case slt =>
    rw [← flagWord_signedLess]
    exact writesOnly_writeReg ..
  case sltu =>
    rw [← flagWord_unsignedLess]
    exact writesOnly_writeReg ..

/-- Settles O27: each instruction is one register write, of a word whose bits the operation gives one by one. -/
theorem registerLogicResults : Obligations.RegisterLogicResults := by
  intro s rd rs rt
  refine ⟨⟨_, _, rfl, writesOnly_writeReg .., fun k hk => ?and⟩, ⟨_, _, rfl, writesOnly_writeReg .., fun k hk => ?or⟩,
    ⟨_, _, rfl, writesOnly_writeReg .., fun k hk => ?xor⟩, ⟨_, _, rfl, writesOnly_writeReg .., fun k hk => ?nor⟩⟩
  case and => exact BitVec.getLsbD_and
  case or => exact BitVec.getLsbD_or
  case xor => exact BitVec.getLsbD_xor
  case nor => rw [BitVec.getLsbD_not, decide_eq_true hk, Bool.true_and, BitVec.getLsbD_or]

end Sys2Proof.Machine

/-! PROOFS. The conditional moves (43_cond_move.md). First the rules the proof uses: each move with its condition met
and not met. Then the statement. -/

namespace Sys2Proof.Machine

/-! ## A conditional move, taken and not taken -/

section
variable {s : State} {rt : RegIdx}

theorem exec_movn_of_ne_zero (h : s.readReg rt ≠ 0#32) (rd rs : RegIdx) :
    exec (.movn rd rs rt) s = .next (s.writeReg rd (s.readReg rs)) :=
  congrArg Host.Outcome.next (if_pos (decide_eq_true h))

theorem exec_movn_of_eq_zero (h : s.readReg rt = 0#32) (rd rs : RegIdx) : exec (.movn rd rs rt) s = .next s :=
  congrArg Host.Outcome.next (if_neg fun hne => absurd h (of_decide_eq_true hne))

theorem exec_movz_of_eq_zero (h : s.readReg rt = 0#32) (rd rs : RegIdx) :
    exec (.movz rd rs rt) s = .next (s.writeReg rd (s.readReg rs)) :=
  congrArg Host.Outcome.next (if_pos (decide_eq_true h))

theorem exec_movz_of_ne_zero (h : s.readReg rt ≠ 0#32) (rd rs : RegIdx) : exec (.movz rd rs rt) s = .next s :=
  congrArg Host.Outcome.next (if_neg fun heq => absurd (of_decide_eq_true heq) h)

end

/-! ## The statement -/

/-- Settles O28: the move whose condition is met is one register write, the other is the identity. -/
theorem conditionalMoveResults : Obligations.ConditionalMoveResults := by
  intro s rd rs rt
  constructor
  case left =>
    intro hne
    exact ⟨⟨_, exec_movn_of_ne_zero hne rd rs, writesOnly_writeReg ..⟩, exec_movz_of_ne_zero hne rd rs⟩
  case right =>
    intro heq
    exact ⟨⟨_, exec_movz_of_eq_zero heq rd rs, writesOnly_writeReg ..⟩, exec_movn_of_eq_zero heq rd rs⟩

end Sys2Proof.Machine

/-! PROOFS. The shifts (44_shifts.md). First the rules the proofs use: each shift of a word as arithmetic on its value,
the register write of each, and the amount of a register form as a remainder. Then the statements. -/

namespace Sys2Proof.Machine

/-! ## A shift as arithmetic modulo 2^32, and its register write -/

section
variable (s : State) (rd : RegIdx) (w : Word) (n : Nat)

theorem shiftLeft_eq_ofNat_mul : w <<< n = BitVec.ofNat 32 (w.toNat * 2 ^ n) := by
  apply BitVec.eq_of_toNat_eq
  rw [BitVec.toNat_shiftLeft, Nat.shiftLeft_eq, BitVec.toNat_ofNat]

theorem ushiftRight_eq_ofNat_div : w >>> n = BitVec.ofNat 32 (w.toNat / 2 ^ n) := by
  rw [← Nat.shiftRight_eq_div_pow, ← BitVec.toNat_ushiftRight, BitVec.ofNat_toNat, BitVec.setWidth_eq]

/-- The division is the one that rounds down, also for a negative value. -/
theorem sshiftRight_eq_ofInt_div : w.sshiftRight n = BitVec.ofInt 32 (w.toInt / 2 ^ n) := by
  rw [BitVec.sshiftRight, Int.shiftRight_eq_div_pow, Int.natCast_pow, Int.cast_ofNat_Int]

theorem writesOnly_shiftLeft :
    WritesOnly s (s.writeReg rd (w <<< n)) rd (BitVec.ofNat 32 (w.toNat * 2 ^ n)) [] := by
  rw [← shiftLeft_eq_ofNat_mul]
  exact writesOnly_writeReg ..

theorem writesOnly_ushiftRight :
    WritesOnly s (s.writeReg rd (w >>> n)) rd (BitVec.ofNat 32 (w.toNat / 2 ^ n)) [] := by
  rw [← ushiftRight_eq_ofNat_div]
  exact writesOnly_writeReg ..

theorem writesOnly_sshiftRight :
    WritesOnly s (s.writeReg rd (w.sshiftRight n)) rd (BitVec.ofInt 32 (w.toInt / 2 ^ n)) [] := by
  rw [← sshiftRight_eq_ofInt_div]
  exact writesOnly_writeReg ..

end

/-! ## The amount of a register form (44_shifts.md R210) -/

theorem regShift_eq_mod (amount : Word) : regShift amount = amount.toNat % 32 := by
  rw [regShift, BitVec.extractLsb'_toNat, Nat.shiftRight_zero]

/-! ## The statements -/

/-- Settles O29: each shift is one register write, of the word that the arithmetic on the source's value gives. -/
theorem immediateShiftResults : Obligations.ImmediateShiftResults := by
  intro s rd rt sa
  refine ⟨⟨_, rfl, ?sll⟩, ⟨_, rfl, ?srl⟩, ⟨_, rfl, ?sra⟩⟩
  case sll => exact writesOnly_shiftLeft ..
  case srl => exact writesOnly_ushiftRight ..
  case sra => exact writesOnly_sshiftRight ..

/-- Settles O30: the same register writes, by the amount that the low 5 bits of the register give before the write. -/
theorem registerShiftResults : Obligations.RegisterShiftResults := by
  intro s rd rt rs amount
  have hamount : amount = regShift (s.readReg rs) := (regShift_eq_mod _).symm
  rw [hamount]
  refine ⟨⟨_, rfl, ?sllv⟩, ⟨_, rfl, ?srlv⟩, ⟨_, rfl, ?srav⟩⟩
  case sllv => exact writesOnly_shiftLeft ..
  case srlv => exact writesOnly_ushiftRight ..
  case srav => exact writesOnly_sshiftRight ..

end Sys2Proof.Machine

/-! PROOFS. Control transfer (45_control_transfer.md). First the rules the proofs use: the targets as arithmetic on the pc,
what the delay slot's step leaves unchanged, the entry to the slot and the way out of it with the link and without it, how
a transfer completes, what a nested transfer does, the pc after a transfer's step, and a step under the other `LINK_TIMING`.
Then the statements. -/

namespace Sys2Proof.Machine

/-! ## Targets (45_control_transfer.md R240, R241) -/

/-- A branch counts its offset in instructions of 4 bytes. -/
theorem branchTarget_eq_ofInt (pcE : Word) (off : Field16) :
    branchTarget pcE off = BitVec.ofInt 32 ((pcE.toNat : Int) + 4 * off.toInt) := by
  have hoff : off.signExtend 32 <<< 2 = BitVec.ofInt 32 (off.toInt * 4) :=
    (BitVec.shiftLeft_eq_mul_twoPow ..).trans (BitVec.ofInt_mul off.toInt 4).symm
  rw [branchTarget, hoff, BitVec.ofInt_add, BitVec.ofInt_natCast, BitVec.ofNat_toNat, BitVec.setWidth_eq, Int.mul_comm]

/-- A jump stays in the 256 MiB region of its delay slot. -/
theorem jumpTarget_eq_ofNat (pcE : Word) (index : Index26) :
    jumpTarget pcE index = BitVec.ofNat 32 (pcE.toNat / 2 ^ 28 * 2 ^ 28 + 4 * index.toNat) := by
  have hregion : pcE.toNat / 2 ^ 28 % 2 ^ 4 = pcE.toNat / 2 ^ 28 := by omega
  apply BitVec.eq_of_toNat_eq
  rw [jumpTarget, BitVec.toNat_append, BitVec.toNat_append, BitVec.extractLsb'_toNat, BitVec.toNat_ofNat,
    Nat.shiftRight_eq_div_pow, hregion, ← Nat.shiftLeft_add_eq_or_of_lt (by simp),
    ← Nat.shiftLeft_add_eq_or_of_lt index.isLt]
  simp only [Nat.shiftLeft_eq, BitVec.toNat_ofNat]
  omega

/-! ## The delay slot's step -/

/-- The delay slot's step advances the pc by 4 and no further, and keeps the launch parameter. -/
theorem slotStep_keeps {s u : State} (h : slotStep s = .next u) :
    u.pc = s.pc + 4#32 ∧ u.linkTiming = s.linkTiming := by
  obtain ⟨-, d, v, -, -, heff, rfl⟩ := slotStep_next_iff.1 h
  exact ⟨heff.pc, heff.linkTiming⟩

/-- A transfer that completes outside a delay slot found its delay slot ready. -/
theorem slotReady_of_transfer_next {s t : State} {x : Transfer} (hs : s.inDelaySlot = false)
    (h : transfer x s = .next t) : SlotReady s := by
  rcases transfer_next_iff.1 h with ⟨hslot, -⟩ | ⟨-, u, hu, -⟩
  · simp [hs] at hslot
  · obtain ⟨ha, d, -, hd, -, -, -⟩ := slotStep_next_iff.1 hu
    rw [enterSlot_prog, enterSlot_pc] at hd
    have hindex : s.pc.toNat / 4 < s.prog.length := (List.getElem?_eq_some_iff.1 hd).1
    exact ⟨hs, enterSlot_pc s x ▸ ha, by omega⟩

/-! ## Entering and leaving the delay slot, with the link and without it (45_control_transfer.md R233) -/

/-- The end of a transfer: the pc committed if it is taken, and the flag cleared (45_control_transfer.md R235). -/
def State.commit (s : State) (x : Transfer) : State :=
  { s with pc := if x.taken then x.target else s.pc, inDelaySlot := false }

section
variable {s : State} {x : Transfer}

theorem enterSlot_of_not_links (hl : x.links = false) : s.enterSlot x = { s with inDelaySlot := true } := by
  simp [State.enterSlot, State.link, hl]

theorem enterSlot_of_after (h : s.linkTiming = .afterDelaySlot) : s.enterSlot x = { s with inDelaySlot := true } := by
  simp [State.enterSlot, State.link, h]

theorem enterSlot_of_before (hl : x.links = true) (h : s.linkTiming = .beforeDelaySlot) :
    s.enterSlot x = { s.writeReg linkReg (linkValue s.pc) with inDelaySlot := true } := by
  simp [State.enterSlot, State.link, hl, h]

theorem leaveSlot_of_not_links (hl : x.links = false) (pcE : Word) : s.leaveSlot x pcE = s.commit x := by
  simp [State.leaveSlot, State.link, State.commit, hl]

theorem leaveSlot_of_before (h : s.linkTiming = .beforeDelaySlot) (pcE : Word) : s.leaveSlot x pcE = s.commit x := by
  simp [State.leaveSlot, State.link, State.commit, h]

theorem leaveSlot_of_after (hl : x.links = true) (h : s.linkTiming = .afterDelaySlot) (pcE : Word) :
    s.leaveSlot x pcE = (s.writeReg linkReg (linkValue pcE)).commit x := by
  simp [State.leaveSlot, State.link, State.commit, hl, h]

end

/-! ## A transfer that completes (45_control_transfer.md R232) -/

section
variable {i : Instr} {s : State} {taken : Bool} {target : Word}

/-- A transfer without a link completes where its delay slot is ready. -/
theorem completesUnlinked_of_exec (hs : SlotReady s) (hx : exec i s = transfer ⟨false, taken, target⟩ s) :
    CompletesUnlinked i s taken target := by
  obtain ⟨u, hslot, ht⟩ := transfer_ready hs ⟨false, taken, target⟩
  obtain ⟨hpc, -⟩ := slotStep_keeps hslot
  rw [enterSlot_pc] at hpc
  rw [enterSlot_of_not_links rfl] at hslot
  rw [leaveSlot_of_not_links rfl, State.commit, hpc] at ht
  exact ⟨u, hslot, hpc, hx.trans ht⟩

/-- A linking transfer completes where its delay slot is ready: of its two links the one that `LINK_TIMING` names takes
place. -/
theorem completesLinked_of_exec (hs : SlotReady s) (hx : exec i s = transfer ⟨true, true, target⟩ s) :
    CompletesLinked i s target := by
  obtain ⟨u, hslot, ht⟩ := transfer_ready hs ⟨true, true, target⟩
  obtain ⟨hpc, htiming⟩ := slotStep_keeps hslot
  rw [enterSlot_pc] at hpc
  rw [enterSlot_linkTiming] at htiming
  constructor
  case left =>
    intro hbefore
    rw [enterSlot_of_before rfl hbefore] at hslot
    rw [leaveSlot_of_before (htiming.trans hbefore)] at ht
    exact ⟨u, hslot, hpc, hx.trans ht⟩
  case right =>
    intro hafter
    rw [enterSlot_of_after hafter] at hslot
    rw [leaveSlot_of_after rfl (htiming.trans hafter)] at ht
    exact ⟨u, hslot, hpc, hx.trans ht⟩

end

/-! ## A nested transfer (45_control_transfer.md R234) -/

/-- In the nested step's dispatch every transfer is a nested transfer. -/
theorem slotExecRecord_of_transfer {r : Record} (h : r.isTransfer = true) (s : State) :
    slotExecRecord r s = nestedTransfer s := by
  cases r with
  | unsup => cases h
  | invalid => cases h
  | op i =>
    cases i
    case j | jal | jr | jalr | beq | bne | bltz | blez | bgtz | bgez => rfl
    all_goals cases h

/-- A delay slot that holds a transfer reports it, and its step does nothing else. -/
theorem slotStep_of_transfer {s : State} {e : Entry} (ha : s.pc.toNat % 4 = 0)
    (he : s.prog[s.pc.toNat / 4]? = some e) (htr : e.record.isTransfer = true) :
    slotStep s = .next ((s.fetched e).diag .nestedTransfer).forceZero := by
  rw [slotStep_of_entry ha he, slotExecRecord_of_transfer htr, nestedTransfer, onNext_next]

/-! ## The pc after a transfer's step (45_control_transfer.md R235, R255) -/

/-- The pc after a step at a transfer is the transfer's to say, whatever its delay slot does: `x` is what the handler
captured at entry. -/
theorem step_pc_of_transfer {s t : State} {e : Entry} {x : Transfer} (hs : s.inDelaySlot = false)
    (ha : s.pc.toNat % 4 = 0) (he : s.prog[s.pc.toNat / 4]? = some e)
    (hx : execRecord e.record (s.fetched e) = transfer x (s.fetched e)) (h : step s = .next t) :
    t.pc = if x.taken then x.target else s.pc + 8#32 := by
  rw [step_of_entry ha he, hx, onNext_next_iff] at h
  obtain ⟨v, hv, rfl⟩ := h
  rcases transfer_next_iff.1 hv with ⟨hslot, -⟩ | ⟨-, u, hu, rfl⟩
  · simp [hs] at hslot
  · obtain ⟨hpc, -⟩ := slotStep_keeps hu
    rw [forceZero_pc, leaveSlot_pc, hpc, enterSlot_pc, fetched_pc, BitVec.add_assoc]
    rfl

/-- The pc after a step at a conditional branch. -/
theorem step_pc_of_branch {s t : State} {e : Entry} {c : Prop} [Decidable c] {off : Field16} (hs : s.inDelaySlot = false)
    (ha : s.pc.toNat % 4 = 0) (he : s.prog[s.pc.toNat / 4]? = some e)
    (hx : execRecord e.record (s.fetched e) = branch (decide c) off (s.fetched e)) (h : step s = .next t) :
    t.pc = if c then branchTarget (s.pc + 4#32) off else s.pc + 8#32 := by
  simpa using step_pc_of_transfer hs ha he hx h

/-! ## A step under another `LINK_TIMING` (45_control_transfer.md R233) -/

/-- The state of an engine constructed with another `LINK_TIMING`. -/
def State.withLinkTiming (s : State) (timing : LinkTiming) : State := { s with linkTiming := timing }

/-- The delay slot's step neither reads nor writes the launch parameter. -/
theorem slotStep_withLinkTiming {s u : State} (timing : LinkTiming) (h : slotStep s = .next u) :
    slotStep (s.withLinkTiming timing) = .next (u.withLinkTiming timing) := by
  obtain ⟨ha, d, v, hd, hv, -, rfl⟩ := slotStep_next_iff.1 h
  have hv' : slotExecRecord d.record ((s.withLinkTiming timing).fetched d) = .next (v.withLinkTiming timing) :=
    slotExecRecord_linkTiming timing hv
  rw [slotStep_of_entry (s := s.withLinkTiming timing) ha hd, hv']
  rfl

/-- The step of a delay slot that leaves register 31 alone can be taken before or after a write to it. -/
theorem slotStep_writeLink {s u : State} (v : Word)
    (h : slotStep s = .next u) (havoid : ∀ d, s.prog[s.pc.toNat / 4]? = some d → avoidsLinkInSlot d.record = true) :
    slotStep (s.writeReg linkReg v) = .next (u.writeReg linkReg v) := by
  obtain ⟨ha, d, w, hd, hw, -, rfl⟩ := slotStep_next_iff.1 h
  have hw' : slotExecRecord d.record ((s.writeReg linkReg v).fetched d) = .next (w.writeReg linkReg v) :=
    slotExecRecord_writeLink v (havoid d hd) hw
  have hcomm : (w.writeReg linkReg v).forceZero = w.forceZero.writeReg linkReg v :=
    writeReg_comm _ _ _ (by decide)
  rw [slotStep_of_entry (s := s.writeReg linkReg v) ha hd, hw', onNext_next, hcomm]

/-- A transfer outside a delay slot, from the step of its own slot. -/
theorem transfer_of_slotStep {s u : State} {x : Transfer} (h : slotStep (s.enterSlot x) = .next u)
    (hs : s.inDelaySlot = false) : transfer x s = .next (u.leaveSlot x s.pc) :=
  transfer_next_iff.2 (.inr ⟨hs, u, h, rfl⟩)

/-- The transfer ends in one state under either value of `LINK_TIMING`, but for the value itself. -/
def EndsAlikeUnderEitherTiming (x : Transfer) (s : State) : Prop :=
  ∃ u : State, ∀ timing, transfer x (s.withLinkTiming timing) = .next (u.withLinkTiming timing)

theorem endsAlike_of_not_links {s : State} (hs : SlotReady s) {x : Transfer} (hl : x.links = false) :
    EndsAlikeUnderEitherTiming x s := by
  obtain ⟨u, hu⟩ := slotStep_ready (s := { s with inDelaySlot := true }) hs.aligned hs.inside
  refine ⟨u.commit x, fun timing => ?_⟩
  have hslot : slotStep ((s.withLinkTiming timing).enterSlot x) = .next (u.withLinkTiming timing) := by
    rw [enterSlot_of_not_links hl]
    exact slotStep_withLinkTiming timing hu
  rw [transfer_of_slotStep hslot hs.normal, leaveSlot_of_not_links hl]
  rfl

/-- Where the delay slot leaves register 31 alone, the link before it and the link after it come to the same. -/
theorem endsAlike_of_links {s : State} (hs : SlotReady s) {x : Transfer} (hl : x.links = true)
    (havoid : ∀ d, s.prog[s.pc.toNat / 4]? = some d → avoidsLinkInSlot d.record = true) :
    EndsAlikeUnderEitherTiming x s := by
  obtain ⟨u, hu⟩ := slotStep_ready (s := { s with inDelaySlot := true }) hs.aligned hs.inside
  refine ⟨(u.writeReg linkReg (linkValue s.pc)).commit x, fun timing => ?_⟩
  have hu' := slotStep_withLinkTiming timing hu
  cases timing with
  | beforeDelaySlot =>
    have hslot : slotStep ((s.withLinkTiming .beforeDelaySlot).enterSlot x) =
        .next ((u.withLinkTiming .beforeDelaySlot).writeReg linkReg (linkValue s.pc)) := by
      rw [enterSlot_of_before hl rfl]
      exact slotStep_writeLink (linkValue s.pc) hu' havoid
    rw [transfer_of_slotStep hslot hs.normal, leaveSlot_of_before rfl]
    rfl
  | afterDelaySlot =>
    have hslot : slotStep ((s.withLinkTiming .afterDelaySlot).enterSlot x) =
        .next (u.withLinkTiming .afterDelaySlot) := by
      rw [enterSlot_of_after rfl]
      exact hu'
    rw [transfer_of_slotStep hslot hs.normal, leaveSlot_of_after hl rfl]
    rfl

/-- A transfer captures the same operands under either value of `LINK_TIMING`. -/
theorem execRecord_of_transfer_withLinkTiming {r : Record} (h : r.isTransfer = true) (s : State) :
    ∃ x : Transfer, execRecord r s = transfer x s ∧ x.links = isLinking r ∧
      ∀ timing, execRecord r (s.withLinkTiming timing) = transfer x (s.withLinkTiming timing) := by
  cases r with
  | unsup => cases h
  | invalid => cases h
  | op i =>
    cases i
    case j | jal | jr | jalr | beq | bne | bltz | blez | bgtz | bgez => exact ⟨_, rfl, rfl, fun _ => rfl⟩
    all_goals cases h

/-- A record that completes under one value of `LINK_TIMING` completes under the other, to the same state, where it does
not link or the delay slot leaves register 31 alone. -/
theorem execRecord_withLinkTiming {r : Record} {s t : State} (timing : LinkTiming)
    (havoid : isLinking r = true → ∀ d, s.prog[s.pc.toNat / 4]? = some d → avoidsLinkInSlot d.record = true)
    (h : execRecord r s = .next t) :
    execRecord r (s.withLinkTiming timing) = .next (t.withLinkTiming timing) := by
  cases htr : r.isTransfer with
  | false =>
    rw [execRecord_eq_slotExecRecord htr] at h ⊢
    exact slotExecRecord_linkTiming timing h
  | true =>
    obtain ⟨x, hx, hlinks, hx'⟩ := execRecord_of_transfer_withLinkTiming htr s
    rw [hx] at h
    rw [hx']
    cases hs : s.inDelaySlot with
    | true =>
      rw [transfer_nested hs, nestedTransfer] at h
      obtain rfl : s.diag .nestedTransfer = t := Host.Outcome.next.inj h
      exact transfer_nested (s := s.withLinkTiming timing) hs x
    | false =>
      have hready : SlotReady s := slotReady_of_transfer_next hs h
      have halike : EndsAlikeUnderEitherTiming x s := by
        cases hl : x.links with
        | false => exact endsAlike_of_not_links hready hl
        | true => exact endsAlike_of_links hready hl (havoid (hlinks ▸ hl))
      obtain ⟨u, hu⟩ := halike
      obtain rfl : u.withLinkTiming s.linkTiming = t := Host.Outcome.next.inj ((hu s.linkTiming).symm.trans h)
      exact hu timing

/-! ## The statements -/

/-- Settles O33: both branches are the one handler, without a link. -/
theorem equalityBranchesComplete : Obligations.EqualityBranchesComplete := by
  intro s rs rt off hs target
  have htarget : branchTarget s.pc off = target := branchTarget_eq_ofInt s.pc off
  rw [← htarget]
  exact ⟨completesUnlinked_of_exec hs rfl, completesUnlinked_of_exec hs rfl⟩

/-- Settles O34: the four branches are the one handler, without a link. -/
theorem signBranchesComplete : Obligations.SignBranchesComplete := by
  intro s rs off hs target
  have htarget : branchTarget s.pc off = target := branchTarget_eq_ofInt s.pc off
  rw [← htarget]
  exact ⟨completesUnlinked_of_exec hs rfl, completesUnlinked_of_exec hs rfl, completesUnlinked_of_exec hs rfl,
    completesUnlinked_of_exec hs rfl⟩

/-- Settles O35: both jumps are the one handler, taken and without a link. -/
theorem plainJumpsComplete : Obligations.PlainJumpsComplete := by
  intro s index rs hs
  rw [← jumpTarget_eq_ofNat]
  exact ⟨completesUnlinked_of_exec hs rfl, completesUnlinked_of_exec hs rfl⟩

/-- Settles O36: both jumps are the one handler, taken and with a link. -/
theorem linkingJumpsComplete : Obligations.LinkingJumpsComplete := by
  intro s index rs hs
  rw [← jumpTarget_eq_ofNat]
  exact ⟨completesLinked_of_exec hs rfl, completesLinked_of_exec hs rfl⟩

/-- Settles O37: in a delay slot the handler only reports, and the outer transfer leaves the slot as it leaves any. -/
theorem nestedTransferHasNoEffect : Obligations.NestedTransferHasNoEffect := by
  refine ⟨fun s i hs htr => ?exec, fun s e _ ha he htr => slotStep_of_transfer ha he htr,
    fun s e x hs he htr => ?outer⟩
  case exec =>
    obtain ⟨x, hx⟩ := exec_of_transfer htr s
    rw [hx, transfer_nested hs]
    rfl
  case outer =>
    obtain ⟨u, hslot, ht⟩ := transfer_ready hs x
    have hslot' := slotStep_of_transfer (s := s.enterSlot x) (e := e) (by simpa using hs.aligned) (by simpa using he) htr
    obtain rfl := Host.Outcome.next.inj (hslot.symm.trans hslot')
    exact ⟨_, ht, by simp, rfl, by simp⟩

/-- Settles O38: a fetch leaves the registers as they were, so what the handler captured at entry is what they held before
the step. -/
theorem delaySlotCannotRedirectItsTransfer : Obligations.DelaySlotCannotRedirectItsTransfer := by
  intro s t e hs ha he h
  refine ⟨fun rs hr => ?jumps, fun rs rt off hr => ?beq, fun rs rt off hr => ?bne, fun rs off hr => ?bltz,
    fun rs off hr => ?blez, fun rs off hr => ?bgtz, fun rs off hr => ?bgez⟩
  case jumps =>
    rcases hr with hr | hr
    · exact step_pc_of_transfer (x := ⟨false, true, s.readReg rs⟩) hs ha he (by rw [hr]; rfl) h
    · exact step_pc_of_transfer (x := ⟨true, true, s.readReg rs⟩) hs ha he (by rw [hr]; rfl) h
  case beq | bne | bltz | blez | bgtz | bgez => exact step_pc_of_branch hs ha he (by rw [hr]; rfl) h

/-- Settles O39: the delay slot's index is the transfer's plus 1, as the pc does not wrap. -/
theorem linkTimingMattersOnlyWhenTheSlotTouchesRegister31 :
    Obligations.LinkTimingMattersOnlyWhenTheSlotTouchesRegister31 := by
  intro s t timing havoid hwrap h
  rcases step_next_iff.1 h with ⟨hh, rfl⟩ | ⟨ha, e, u, he, hu, rfl⟩
  · exact step_of_halted hh
  · have hnext : (s.fetched e).pc.toNat / 4 = s.pc.toNat / 4 + 1 := by
      rw [fetched_pc, BitVec.toNat_add, BitVec.toNat_ofNat]
      omega
    have hu' : execRecord e.record ((s.fetched e).withLinkTiming timing) = .next (u.withLinkTiming timing) :=
      execRecord_withLinkTiming timing (fun hl d hd => havoid e d he hl (hnext ▸ hd)) hu
    have hstep := step_of_entry (s := s.withLinkTiming timing) ha he
    exact hstep.trans (congrArg (onNext State.forceZero) hu')

end Sys2Proof.Machine

/-! PROOFS. Diagnostics (60_exceptions.md). What a record reports, its own diagnostic or its delay slot's, and then the
statement about a step. -/

namespace Sys2Proof.Machine

/-- At most one diagnostic is appended, of a kind the engine raises, on the line executed last (60_exceptions.md R301,
R305). -/
def ReportsAtMostOnce (s t : State) : Prop :=
  t.diags = s.diags ∨ ∃ k ∈ engineKinds, t.diags = s.diags ++ [⟨t.curLine, k⟩]

/-- An instruction that is no transfer reports on its own line, which stays the line executed last. -/
theorem StraightEffect.reportsAtMostOnce {s t : State} (h : StraightEffect s t) : ReportsAtMostOnce s t := by
  rcases h.reports with hr | ⟨k, hk, hr⟩
  · exact .inl (by simpa [Reports] using hr)
  · exact .inr ⟨k, hk, by simpa [Reports, h.curLine] using hr⟩

/-- A record reports at most once, whatever the flag: a transfer in a delay slot reports only itself, and a transfer
outside one reports nothing of its own, so what it appends is its delay slot's, on the delay slot's line. -/
theorem execRecord_reportsAtMostOnce {r : Record} {s t : State} (h : execRecord r s = .next t) :
    ReportsAtMostOnce s t := by
  cases htr : r.isTransfer with
  | false =>
    obtain ⟨u, hu, heff⟩ := execRecord_straight htr s
    obtain rfl : t = u := by simpa [h] using hu
    exact heff.reportsAtMostOnce
  | true =>
    obtain ⟨x, hx⟩ := execRecord_of_transfer htr s
    rcases transfer_next_iff.1 (hx ▸ h) with ⟨-, rfl⟩ | ⟨-, u, hu, rfl⟩
    · exact (straight_diag s (by decide)).reportsAtMostOnce
    · obtain ⟨-, d, v, -, -, heff, rfl⟩ := slotStep_next_iff.1 hu
      simpa [ReportsAtMostOnce] using heff.reportsAtMostOnce

/-- Settles O45: neither the fetch nor the forcing of register 0 reports, and a halted step changes nothing. -/
theorem stepReportsAtMostOnce : Obligations.StepReportsAtMostOnce := by
  intro s t _ h
  rcases step_next_iff.1 h with ⟨-, rfl⟩ | ⟨-, e, u, -, hu, rfl⟩
  · exact .inl rfl
  · exact (execRecord_reportsAtMostOnce hu : ReportsAtMostOnce (s.fetched e) u)

end Sys2Proof.Machine

/-! PROOFS. Reset and the empty program (70_reset_and_hazards.md). First what a command does to a halted engine, and which
program is halted at every pc; then the statement. -/

namespace Sys2Proof.Machine

/-- A halted engine answers every command with itself: its step changes nothing, and a run ends before its first step
(40_cycle.md R139 to R142). -/
theorem command_of_halted {s : State} (h : s.halted = true) (fuel : Nat) (c : Command) :
    Engine.command fuel c (.ready s) = .ended (.ready s) := by
  cases c with
  | step => rw [Engine.command, stepCommand, step_of_halted h]
  | run => exact runWhile_ended_iff.2 (.halted h)
  | runUntilLine line => exact runWhile_ended_iff.2 (.halted h)

/-- No pc is within the bounds of an empty program (10_state.md R28). -/
theorem halted_of_prog_nil {s : State} (h : s.prog = []) : s.halted = true := by
  simp [halted_iff, h]

/-- Settles O7: an empty program is halted at any pc, that of reset included. -/
theorem emptyProgramStaysUnchanged : Obligations.EmptyProgramStaysUnchanged := by
  intro _ _ s _ hprog
  have hhalted : s.halted = true := halted_of_prog_nil hprog
  exact ⟨hhalted, command_of_halted hhalted⟩

end Sys2Proof.Machine
